-- ==== Sys2Proof/Word.lean ====
section
/-! DEFINITION. The two word types of the CORE (spec/00_scope.md R5, R6). -/

namespace Sys2Proof

/-- A byte: A, X, Y, an opcode, a memory cell (00_scope.md R6, "A byte is 8 bits"). -/
abbrev Byte := BitVec 8

/-- A word: PC, SP, an address (00_scope.md R6, "A word is 16 bits"). -/
abbrev Word := BitVec 16

end Sys2Proof
end

