-- ==== Sys2Proof/Machine/Bytes.lean ====
section
/-! DEFINITION. Byte order and bit fields (00_scope.md R6, 20_memory.md R57), used by decoder, encoder and machine. -/

namespace Sys2Proof.Machine

/-- `lo8(w) = w[7:0]` (00_scope.md R6). -/
def lo8 (w : Word) : Byte := w.extractLsb' 0 8

/-- `hi8(w) = w[15:8]` (00_scope.md R6). -/
def hi8 (w : Word) : Byte := w.extractLsb' 8 8

/-- `zext_16(b)` (00_scope.md R6). -/
def zext16 (b : Byte) : Word := b.setWidth 16

/-- A little-endian word: `low | (high << 8)` (30_encoding.md R86, 40_execute.md R101). -/
def wordOf (lo hi : Byte) : Word := zext16 lo ||| (zext16 hi <<< 8)

end Sys2Proof.Machine
end

