-- ==== Sys2Proof/Config.lean ====
section
/-! DEFINITION. The parameters the spec fixes (00_scope.md R5) and the model's one free value. -/

namespace Sys2Proof

/-- The first instruction address after reset: a literal address, no vector (70_reset_and_hazards.md R192). -/
def Config.firstInstruction : Word := 0xFFFC#16

/-- The stack pointer after reset (10_state.md R42). -/
def Config.initialSp : Word := 0x0100#16

/-- The number of bytes of the AddressSpace (20_memory.md R50). -/
def Config.memorySize : Nat := 65536

/-- FREE VALUE (DESIGN CHOICE, log entry 5; safe). What the `n`-th host read of a CORE that was never reset returns:
in phase Faulted after NotReset the host may read (60_exceptions.md R176), but "every register and flag ... holds no
value" (10_state.md R39). It has no body, so nothing can be proved of its value. -/
opaque Config.noValue : Nat → BitVec 16

end Sys2Proof
end

