-- ==== Sys2Proof/Machine/State.lean ====
section
/-! DEFINITION. The state of the machine, the reasons it stops, and the state after reset (10_state.md). -/

namespace Sys2Proof.Machine

/-- The phases of the fetch-decode-execute state machine (10_state.md R38). -/
inductive Phase where
  /-- Constructed, not reset: no register, flag or byte holds a value. -/
  | unreset
  /-- Reset, no run in progress: the host may access state. -/
  | idle
  /-- A run is in progress: only the CORE acts. -/
  | running
  /-- A fault has been raised; only reset leaves this phase. -/
  | faulted
  deriving DecidableEq, Repr

/-- The CORE's faults, each with the info its record holds (60_exceptions.md R161). A fault is taken as a next state in
phase Faulted with this record; `step` then answers it as its outcome. -/
inductive Fault where
  /-- MemoryRangeFault(addr), code 0x81. Raised by JSR whose word write leaves the address space (60_exceptions.md
  R163). Exact: the spec's own fault. -/
  | memoryRange (addr : BitVec 17)
  /-- NotReset, code 0x82. Raised by a run or a host read in phase Unreset (60_exceptions.md R164). Exact: the spec's
  own fault. -/
  | notReset
  deriving DecidableEq, Repr

/-- Why a step is refused. -/
inductive Refusal where
  /-- An instruction without a meaning. Nothing raises it: every instruction has its meaning. Safe. -/
  | notModelled (mnemonic : String)
  /-- The host tried an interaction that 60_exceptions.md R176 does not allow in this phase ("An interaction in any
  other phase is refused: it has no step"). Raised by the host moves of Machine/Host.lean. Safe. -/
  | hostMoveNotAllowed (phase : Phase)
  /-- "In phase Faulted the CORE has no step" (60_exceptions.md R166), with no record to report: reached only from a
  state that breaks 10_state.md R40. Raised by `Machine.coreFaulted`. Safe. -/
  | faultedWithoutRecord
  deriving DecidableEq, Repr

/-- The seven status flags, a logical record with no packing into a byte (10_state.md R30, R35). -/
structure Flags where
  /-- carry -/
  c : Bool
  /-- zero -/
  z : Bool
  /-- interrupt-disable -/
  i : Bool
  /-- decimal-mode -/
  d : Bool
  /-- break -/
  b : Bool
  /-- overflow -/
  v : Bool
  /-- negative -/
  n : Bool
  deriving DecidableEq, Repr

/-- What the host selects on its register port (60_exceptions.md R176); the spec numbers no selector (log entry 12). -/
inductive HostReg where
  | a | x | y | pc | sp
  | flagC | flagZ | flagI | flagD | flagB | flagV | flagN
  deriving DecidableEq, Repr

/-- One move of the host (60_exceptions.md R176, the rows that are inputs of the CORE). -/
inductive HostMove where
  /-- port `reset` -/
  | reset
  /-- `host_mem_we`, `host_mem_addr`, `host_mem_wdata` -/
  | writeMem (addr : Word) (v : Byte)
  /-- `host_mem_addr`, `host_mem_rdata` -/
  | readMem (addr : Word)
  /-- `host_reg_we`, `host_reg_sel`, `host_reg_wdata` -/
  | writeReg (r : HostReg) (v : Word)
  /-- `host_reg_sel`, `host_reg_rdata` -/
  | readReg (r : HostReg)
  /-- `start`, `budget_in`: `execute(b0)` with "an integer >= 0" (40_execute.md R104) -/
  | start (b0 : Nat)
  deriving DecidableEq, Repr

/-- Memory: the bytes that are not zero, by rising address. An address that is not listed reads 0x00, which is what
reset leaves in every byte (20_memory.md R56). -/
abbrev Memory := List Host.Cell

/-- Everything the spec gives the machine (10_state.md R20, R37-R40; 20_memory.md R50), and two fields of the model's
own, `host` and `freeCount`. -/
structure State where
  /-- program counter (10_state.md R21) -/
  pc : Word
  /-- stack pointer, a full byte address (10_state.md R24) -/
  sp : Word
  /-- accumulator (10_state.md R26) -/
  a : Byte
  /-- index register X (10_state.md R27) -/
  x : Byte
  /-- index register Y (10_state.md R28) -/
  y : Byte
  /-- status flags (10_state.md R30) -/
  flags : Flags
  /-- the AddressSpace (20_memory.md R50) -/
  mem : Memory
  /-- remaining cycle budget, may be negative (10_state.md R37) -/
  budget : Int
  /-- state machine state (10_state.md R38) -/
  phase : Phase
  /-- sticky fault record (10_state.md R40) -/
  fault : Option Fault
  /-- MODEL'S OWN (log entry 1): the moves the host is still going to make, the next one first. -/
  host : List HostMove
  /-- MODEL'S OWN (log entry 5): how many free values have been given out. -/
  freeCount : Nat
  deriving DecidableEq, Repr

/-- The machine right after reset (10_state.md R42). `budget` (log entry 2), `host` (log entry 1) and `freeCount` (log
entry 5) are DESIGN CHOICES: reset does not change the budget, and the other two are the model's own. -/
def State.reset : State where
  pc := Config.firstInstruction
  sp := Config.initialSp
  a := 0x00#8
  x := 0x00#8
  y := 0x00#8
  flags := ⟨false, false, false, false, false, false, false⟩
  mem := []
  budget := 0
  phase := .idle
  fault := none
  host := []
  freeCount := 0

/-- A machine that has been constructed and not reset (10_state.md R38, R39). In phase Unreset no definition hands out
the contents of a register or of memory, so what stands in those fields means nothing (log entry 4). -/
def State.constructed : State := { State.reset with phase := .unreset }

end Sys2Proof.Machine
end

