-- ==== Sys2Proof/Machine/Ops.lean ====
section
/-! DEFINITION. The named operations over memory, registers and budget: the primitives of 20_memory.md and
40_execute.md, taking a fault, and reset. -/

namespace Sys2Proof.Machine

/-! ### Memory (20_memory.md) -/

/-- The byte at address `a`: the listed one, else 0x00 (20_memory.md R52, R56). -/
def Memory.read : Memory → Nat → Byte
  | [], _ => 0x00#8
  | (k, v) :: m, a => if a = k then v else Memory.read m a

/-- Put one cell in front, unless its byte is 0x00 and so is not listed. -/
def Memory.cell (a : Nat) (v : Byte) (m : Memory) : Memory :=
  if v = 0x00#8 then m else (a, v) :: m

/-- Store a byte in place, keeping addresses rising and zero bytes unlisted (20_memory.md R53). -/
def Memory.write : Memory → Nat → Byte → Memory
  | [], a, v => Memory.cell a v []
  | (k, u) :: m, a, v =>
    if a < k then Memory.cell a v ((k, u) :: m)
    else if a = k then Memory.cell a v m
    else (k, u) :: Memory.write m a v

/-- From `lo` on: addresses strictly rising and below 0x10000, no listed byte 0x00. -/
def Memory.wfFrom : Nat → Memory → Bool
  | _, [] => true
  | lo, (k, v) :: m => decide (lo ≤ k ∧ k < Config.memorySize ∧ v ≠ 0x00#8) && Memory.wfFrom (k + 1) m

/-- The one canonical form of memory: equal memories are equal lists. -/
def Memory.wf (m : Memory) : Bool := Memory.wfFrom 0 m

/-- The AddressSpace's `reset()`: "sets every byte to zero" (20_memory.md R56). -/
def Memory.zeroed : Memory := []

/-- `MemRead(addr, 1)`: no charge, no other effect (20_memory.md R52). -/
def memRead (addr : Word) (s : State) : Byte := s.mem.read addr.toNat

/-- `MemWrite(addr, 1, v)`: changes only `mem[addr]`, no charge (20_memory.md R53). -/
def memWrite (addr : Word) (v : Byte) (s : State) : State :=
  { s with mem := s.mem.write addr.toNat v }

/-! ### Budget (00_scope.md R8, 40_execute.md R103) -/

/-- `charge(n)`: `budget <- budget - n`, exact, not clamped (00_scope.md R7, R8). -/
def charge (n : Nat) (s : State) : State := { s with budget := s.budget - n }

/-- `Internal()`: charges one cycle and does nothing else (40_execute.md R103). -/
def internal (s : State) : State := charge 1 s

/-- `MemWriteWordLE(addr, w)`: the range check comes before either byte is written; then the low byte at `addr`, the
high byte at `addr + 1`, and a charge of 2 (20_memory.md R54, R55). -/
def memWriteWordLE (addr w : Word) (s : State) : Except Fault State :=
  if addr.toNat + 1 > 0xFFFF then .error (.memoryRange (BitVec.ofNat 17 (addr.toNat + 1)))
  else .ok (charge 2 (memWrite (addr + 1) (hi8 w) (memWrite addr (lo8 w) s)))

/-! ### Fetch and read primitives (40_execute.md R100-R102) -/

/-- What fetching `n` instruction bytes does to the state: PC moves past them modulo 2^16 and each costs one cycle
(40_execute.md R100, 10_state.md R23). -/
def passBytes (n : Nat) (s : State) : State :=
  charge n { s with pc := s.pc + BitVec.ofNat 16 n }

/-- `FetchByte()` (40_execute.md R100). -/
def fetchByte (s : State) : Byte × State := (memRead s.pc s, passBytes 1 s)

/-- `FetchWordLE()`: the low byte at PC, the high byte at the incremented PC (40_execute.md R101). -/
def fetchWordLE (s : State) : Word × State :=
  let lo := memRead s.pc s
  let hi := memRead (s.pc + 1) s
  (wordOf lo hi, passBytes 2 s)

/-- `ReadByteAt(addr)`: a data read; PC does not move (40_execute.md R102). -/
def readByteAt (addr : Word) (s : State) : Byte × State := (memRead addr s, charge 1 s)

/-! ### Faults and reset (60_exceptions.md, 70_reset_and_hazards.md) -/

/-- Fault entry: the phase becomes Faulted and the record is set; no vector is taken, nothing is saved and no other
state changes (60_exceptions.md R160, R165). There is no return from a fault: only `resetCore` leaves Faulted (R166). -/
def raiseFault (f : Fault) (s : State) : State := { s with phase := .faulted, fault := some f }

/-- The reset procedure; it does not change the budget (70_reset_and_hazards.md R190, R191). -/
def resetCore (s : State) : State :=
  { s with
    pc := Config.firstInstruction
    sp := Config.initialSp
    flags := ⟨false, false, false, false, false, false, false⟩
    a := 0x00#8
    x := 0x00#8
    y := 0x00#8
    mem := Memory.zeroed
    fault := none
    phase := .idle }

end Sys2Proof.Machine
end

