-- ==== Sys2Proof/Machine/Flags.lean ====
section
/-! DEFINITION. The CORE's only flag logic (10_state.md R32). -/

namespace Sys2Proof.Machine

/-- `Z <- (A == 0x00)`, `N <- A[7]`; C, I, D, B, V stay (10_state.md R32, R33). -/
def flagsFromAccumulator (a : Byte) (f : Flags) : Flags :=
  { f with z := decide (a = 0x00#8), n := a.getLsbD 7 }

/-- `update_zero_and_negative_flags_from_accumulator()`; it charges nothing (10_state.md R32). -/
def updateFlags (s : State) : State := { s with flags := flagsFromAccumulator s.a s.flags }

/-- Load the accumulator, then run the flag helper on the new A (41_load.md R133). -/
def loadAccumulator (v : Byte) (s : State) : State := updateFlags { s with a := v }

end Sys2Proof.Machine
end

