-- ==== Sys2Proof/Machine/Operands.lean ====
section
/-! DEFINITION. The effective addresses of the operand forms (30_encoding.md R83-R86). Immediate and Absolute use their
operand as it stands (R83, R86) and need no address of their own. -/

namespace Sys2Proof.Machine

/-- Zero Page: `zext_16(zp8)` (30_encoding.md R84). -/
def zeroPageAddr (zp : Byte) : Word := zext16 zp

/-- Zero Page,X: `zext_16(zp8 +8 X)`, wrapping inside the zero page (30_encoding.md R85). -/
def zeroPageXAddr (zp x : Byte) : Word := zext16 (zp + x)

end Sys2Proof.Machine
end

