-- ==== Sys2Proof/Machine/Load.lean ====
section
/-! DEFINITION. LDA (41_load.md). Each form's work after its instruction bytes, the meaning of its instruction, and the
handler as the spec's pseudocode writes it, fetching its own operand. -/

namespace Sys2Proof.Machine

/-- LDA zp after the operand fetch (41_load.md R131). -/
def loadZeroPage (zp : Byte) (s : State) : State :=
  let (v, s) := readByteAt (zeroPageAddr zp) s
  loadAccumulator v s

/-- LDA zp,X after the operand fetch: the index addition costs one internal cycle (41_load.md R132). -/
def loadZeroPageX (zp : Byte) (s : State) : State :=
  let ea := zeroPageXAddr zp s.x
  let s := internal s
  let (v, s) := readByteAt ea s
  loadAccumulator v s

/-- LDA #imm (41_load.md R130). -/
def execLdaImm (imm : Byte) (s : State) : Host.Outcome State Fault Refusal :=
  .next (loadAccumulator imm (passBytes 2 s))

/-- LDA zp (41_load.md R131). -/
def execLdaZp (zp : Byte) (s : State) : Host.Outcome State Fault Refusal :=
  .next (loadZeroPage zp (passBytes 2 s))

/-- LDA zp,X (41_load.md R132). -/
def execLdaZpx (zp : Byte) (s : State) : Host.Outcome State Fault Refusal :=
  .next (loadZeroPageX zp (passBytes 2 s))

/-- `LDA_IMM()`, entered after the opcode fetch (41_load.md R130). -/
def handlerLdaImm (s : State) : State :=
  let (imm, s) := fetchByte s
  loadAccumulator imm s

/-- `LDA_ZP()`, entered after the opcode fetch (41_load.md R131). -/
def handlerLdaZp (s : State) : State :=
  let (zp, s) := fetchByte s
  loadZeroPage zp s

/-- `LDA_ZPX()`, entered after the opcode fetch (41_load.md R132). -/
def handlerLdaZpx (s : State) : State :=
  let (zp, s) := fetchByte s
  loadZeroPageX zp s

end Sys2Proof.Machine
end

