-- ==== Sys2Proof/Machine/Subroutine.lean ====
section
/-! DEFINITION. JSR abs, the only control transfer (42_subroutine.md). -/

namespace Sys2Proof.Machine

/-- JSR after the operand fetch, PC past the instruction: write `PC -16 1` at SP, advance SP by ONE, go to the target.
With SP = 0xFFFF the word write raises MemoryRangeFault and nothing more happens (42_subroutine.md R140). -/
def callThrough (target : Word) (s : State) : State :=
  let ret := s.pc - 1
  match memWriteWordLE s.sp ret s with
  | .error f => raiseFault f s
  | .ok s =>
    let s := internal s
    let s := { s with sp := s.sp + 1 }
    let s := internal s
    { s with pc := target }

/-- JSR abs (42_subroutine.md R140). Its fault is taken: a next state in phase Faulted (60_exceptions.md R165). -/
def execJsrAbs (target : Word) (s : State) : Host.Outcome State Fault Refusal :=
  .next (callThrough target (passBytes 3 s))

/-- `JSR_ABS()`, entered after the opcode fetch (42_subroutine.md R140). -/
def handlerJsrAbs (s : State) : State :=
  let (target, s) := fetchWordLE s
  callThrough target s

end Sys2Proof.Machine
end

