-- ==== Sys2Proof/Machine/Unhandled.lean ====
section
/-! DEFINITION. The 252 opcodes with no handler (40_execute.md R109). -/

namespace Sys2Proof.Machine

/-- An unhandled opcode: the opcode fetch's own effect and nothing else (40_execute.md R109). The byte matters only to
the diagnostic channel (Machine/Diagnostics.lean). -/
def execUnhandled (_opcode : Byte) (s : State) : Host.Outcome State Fault Refusal :=
  .next (passBytes 1 s)

/-- `Unhandled(P)`, entered after the opcode fetch: no effect on state (40_execute.md R109). -/
def handlerUnhandled (s : State) : State := s

end Sys2Proof.Machine
end

