-- ==== Sys2Proof/Syntax.lean ====
section
/-! DEFINITION. The instructions: one constructor per row of spec/opcode_table.json. -/

namespace Sys2Proof

/-- An instruction with its operands already assembled from its bytes (30_encoding.md R81-R86). -/
inductive Instr where
  /-- LDA #imm, opcode 0xA9, format IMM (41_load.md R130). -/
  | ldaImm (imm : Byte)
  /-- LDA zp, opcode 0xA5, format ZP (41_load.md R131). -/
  | ldaZp (zp : Byte)
  /-- LDA zp,X, opcode 0xB5, format ZPX (41_load.md R132). -/
  | ldaZpx (zp : Byte)
  /-- JSR abs, opcode 0x20, format ABS (42_subroutine.md R140). -/
  | jsrAbs (target : Word)
  /-- One of the 252 opcode bytes with no handler, format OPC (30_encoding.md R88, 40_execute.md R109). -/
  | unhandled (opcode : Byte)
  deriving DecidableEq, Repr

end Sys2Proof
end

