-- ==== Sys2Proof/Machine/Dispatch.lean ====
section
/-! DEFINITION. One arm per instruction (40_execute.md R108). The phase and the budget are the loop's business
(Machine/Step.lean), not an instruction's. -/

namespace Sys2Proof.Machine

def exec (i : Instr) (s : State) : Host.Outcome State Fault Refusal :=
  match i with
  | .ldaImm imm => Sys2Proof.Machine.execLdaImm imm s
  | .ldaZp zp => Sys2Proof.Machine.execLdaZp zp s
  | .ldaZpx zp => Sys2Proof.Machine.execLdaZpx zp s
  | .jsrAbs target => Sys2Proof.Machine.execJsrAbs target s
  | .unhandled opcode => Sys2Proof.Machine.execUnhandled opcode s

end Sys2Proof.Machine
end

