-- ==== Sys2Proof/WellFormed.lean ====
section
/-! DEFINITION. Which terms of Instr stand for an instruction of the CORE. -/

namespace Sys2Proof

/-- The four opcode values the CORE decodes (30_encoding.md R87). -/
def decodedOpcodes : List Byte := [0xA9#8, 0xA5#8, 0xB5#8, 0x20#8]

/-- Every operand value is legal (30_encoding.md R83-R86). The one check is that an unhandled opcode is none of the
four decoded ones (30_encoding.md R88). -/
def Instr.wf : Instr → Bool
  | .ldaImm _ => true
  | .ldaZp _ => true
  | .ldaZpx _ => true
  | .jsrAbs _ => true
  | .unhandled op => !decodedOpcodes.contains op

end Sys2Proof
end

