-- ==== Sys2Proof/Decode.lean ====
section
/-! DEFINITION. The decoder, total on any bytes, and the encoder (30_encoding.md). -/

namespace Sys2Proof

/-- The five handlers the dispatch multiplexer selects from (40_execute.md R108). -/
inductive Handler where
  | ldaImm
  | ldaZp
  | ldaZpx
  | jsrAbs
  | unhandled
  deriving DecidableEq, Repr

/-- Why a list of bytes is no instruction. The machine always has three bytes to show the decoder, so only a caller
with a short list sees one of these. -/
inductive DecodeError where
  /-- The list is empty. -/
  | noOpcode
  /-- The opcode takes more operand bytes than the list holds. -/
  | operandMissing (opcode : Byte)
  deriving DecidableEq, Repr

/-- The 256-entry dispatch: the whole opcode byte selects a handler (30_encoding.md R87, R88, R92). -/
def dispatch (op : Byte) : Handler :=
  if op = 0xA9#8 then .ldaImm
  else if op = 0xA5#8 then .ldaZp
  else if op = 0xB5#8 then .ldaZpx
  else if op = 0x20#8 then .jsrAbs
  else .unhandled

/-- How many operand bytes follow the opcode (30_encoding.md R81, R90). -/
def operandBytes : Handler → Nat
  | .ldaImm => 1
  | .ldaZp => 1
  | .ldaZpx => 1
  | .jsrAbs => 2
  | .unhandled => 0

/-- The instruction that starts with the opcode `op` and the two bytes after it; a form that takes fewer operand bytes
does not look at the rest (30_encoding.md R82-R88). Total: every byte decodes (R92). -/
def instrOf (op b1 b2 : Byte) : Instr :=
  match dispatch op with
  | .ldaImm => .ldaImm b1
  | .ldaZp => .ldaZp b1
  | .ldaZpx => .ldaZpx b1
  | .jsrAbs => .jsrAbs (Machine.wordOf b1 b2)
  | .unhandled => .unhandled op

/-- The decoder: the instruction at the head of a list of bytes and the bytes after it (30_encoding.md R80, R92). -/
def decode : List Byte → Except DecodeError (Instr × List Byte)
  | [] => .error .noOpcode
  | op :: rest =>
    if rest.length < operandBytes (dispatch op) then .error (.operandMissing op)
    else .ok (instrOf op (rest.getD 0 0) (rest.getD 1 0), rest.drop (operandBytes (dispatch op)))

/-- The bytes of an instruction, first byte first (30_encoding.md R81, R87; the target low byte first, R86). -/
def encode : Instr → List Byte
  | .ldaImm imm => [0xA9#8, imm]
  | .ldaZp zp => [0xA5#8, zp]
  | .ldaZpx zp => [0xB5#8, zp]
  | .jsrAbs target => [0x20#8, Machine.lo8 target, Machine.hi8 target]
  | .unhandled op => [op]

/-- The length of an instruction in bytes (30_encoding.md R81). -/
def Instr.length : Instr → Nat
  | .ldaImm _ => 2
  | .ldaZp _ => 2
  | .ldaZpx _ => 2
  | .jsrAbs _ => 3
  | .unhandled _ => 1

/-- The three bytes (the longest instruction, 30_encoding.md R81) of a table word of `nbits` bits: byte 0 in bits [7:0]
(30_encoding.md R82), and zero above `nbits`. -/
def tableWordBytes (nbits w : Nat) : List Byte :=
  let v := w % 2 ^ nbits
  [BitVec.ofNat 8 v, BitVec.ofNat 8 (v / 256), BitVec.ofNat 8 (v / 65536)]

/-- The instruction the decoder reads from a word of spec/opcode_table.json. -/
def decodeTableWord (nbits w : Nat) : Option Instr :=
  match decode (tableWordBytes nbits w) with
  | .ok (i, _) => some i
  | .error _ => none

end Sys2Proof
end

