-- ==== Sys2Proof/Machine/Fetch.lean ====
section
/-! DEFINITION. Reading an instruction at PC (30_encoding.md R80), and placing one there. -/

namespace Sys2Proof.Machine

/-- The three bytes from PC on; byte k of an instruction at P is at `P +16 k` (30_encoding.md R80). -/
def fetchWindow (s : State) : List Byte :=
  [memRead s.pc s, memRead (s.pc + 1) s, memRead (s.pc + 2) s]

/-- The instruction at PC. A shorter form does not look at the bytes after it. Reading the operand bytes together with
the opcode is exact: no instruction writes memory before its last operand byte is fetched (40_execute.md R112, R113). -/
def fetchInstr (s : State) : Instr :=
  instrOf (memRead s.pc s) (memRead (s.pc + 1) s) (memRead (s.pc + 2) s)

/-- Store bytes from `addr` on, addresses modulo 2^16. -/
def placeBytes : List Byte → Word → State → State
  | [], _, s => s
  | b :: bs, addr, s => placeBytes bs (addr + 1) (memWrite addr b s)

/-- What the host must have done for the CORE to run the instruction at PC next: a run in progress with cycles left and
no fault (40_execute.md R104, R105). A budget that is already positive stays. -/
def openRun (s : State) : State :=
  { s with phase := .running, fault := none, budget := if 0 < s.budget then s.budget else 1 }

/-- The table word's bytes at PC and a run in progress (log entry 3). -/
def placeTableWord (nbits w : Nat) (s : State) : State :=
  openRun (placeBytes (tableWordBytes nbits w) s.pc s)

end Sys2Proof.Machine
end

