-- ==== Sys2Proof/Machine/Host.lean ====
section
/-! DEFINITION. The host interface: its moves, by phase, and the outputs it sees (60_exceptions.md R176, R177). -/

namespace Sys2Proof.Machine

/-! ### Register port -/

/-- Bit 0 of the write data, what a flag takes (60_exceptions.md R176). -/
def bit0 (v : Word) : Bool := v.getLsbD 0

/-- A flag on the read port, zero-extended (60_exceptions.md R176). -/
def flagWord (b : Bool) : Word := if b then 1 else 0

/-- "sets A, X, Y (low 8 bits of wdata), PC, SP (16 bits) or one flag (bit 0)" (60_exceptions.md R176). -/
def regWrite (r : HostReg) (v : Word) (s : State) : State :=
  match r with
  | .a => { s with a := lo8 v }
  | .x => { s with x := lo8 v }
  | .y => { s with y := lo8 v }
  | .pc => { s with pc := v }
  | .sp => { s with sp := v }
  | .flagC => { s with flags := { s.flags with c := bit0 v } }
  | .flagZ => { s with flags := { s.flags with z := bit0 v } }
  | .flagI => { s with flags := { s.flags with i := bit0 v } }
  | .flagD => { s with flags := { s.flags with d := bit0 v } }
  | .flagB => { s with flags := { s.flags with b := bit0 v } }
  | .flagV => { s with flags := { s.flags with v := bit0 v } }
  | .flagN => { s with flags := { s.flags with n := bit0 v } }

/-- "returns the value, zero-extended" (60_exceptions.md R176). -/
def regRead (r : HostReg) (s : State) : Word :=
  match r with
  | .a => zext16 s.a
  | .x => zext16 s.x
  | .y => zext16 s.y
  | .pc => s.pc
  | .sp => s.sp
  | .flagC => flagWord s.flags.c
  | .flagZ => flagWord s.flags.z
  | .flagI => flagWord s.flags.i
  | .flagD => flagWord s.flags.d
  | .flagB => flagWord s.flags.b
  | .flagV => flagWord s.flags.v
  | .flagN => flagWord s.flags.n

/-- How many bits a register has: what a free value is cut to before it is zero-extended (10_state.md R20). -/
def regWidth : HostReg → Nat
  | .a => 8
  | .x => 8
  | .y => 8
  | .pc => 16
  | .sp => 16
  | .flagC => 1
  | .flagZ => 1
  | .flagI => 1
  | .flagD => 1
  | .flagB => 1
  | .flagV => 1
  | .flagN => 1

/-! ### Values -/

/-- The CORE was never reset: it is in phase Unreset, or Faulted by NotReset, so no register, flag or byte holds a
value (10_state.md R39, 20_memory.md R71). -/
def neverReset (s : State) : Bool :=
  decide (s.phase = .unreset) || decide (s.fault = some .notReset)

/-- A free value of `width` bits, zero-extended (log entry 5). -/
def freeWord (width : Nat) (s : State) : Word :=
  ((Config.noValue s.freeCount).setWidth width).setWidth 16

/-- A free value has been given out: the next one is another. -/
def countFree (s : State) : State :=
  if neverReset s then { s with freeCount := s.freeCount + 1 } else s

/-! ### Moves, by phase -/

/-- A write: in Idle it takes effect; in Unreset it is allowed and has no lasting effect, since reset overwrites it;
else it is refused (60_exceptions.md R164, R176). -/
def hostWrite (write : State → State) (s : State) : Host.Outcome State Fault Refusal :=
  match s.phase with
  | .unreset => .next (write s)
  | .idle => .next (write s)
  | .running => .refused (.hostMoveNotAllowed .running)
  | .faulted => .refused (.hostMoveNotAllowed .faulted)

/-- A read changes nothing in Idle and Faulted, raises NotReset in Unreset and is refused in Running
(60_exceptions.md R164, R166, R176). The value it returns is `hostRdata`. -/
def hostRead (s : State) : Host.Outcome State Fault Refusal :=
  match s.phase with
  | .unreset => .next (raiseFault .notReset s)
  | .idle => .next (countFree s)
  | .running => .refused (.hostMoveNotAllowed .running)
  | .faulted => .next (countFree s)

/-- Reset: every phase but Running (70_reset_and_hazards.md R191, 60_exceptions.md R176). -/
def hostReset (s : State) : Host.Outcome State Fault Refusal :=
  match s.phase with
  | .running => .refused (.hostMoveNotAllowed .running)
  | .unreset => .next (resetCore s)
  | .idle => .next (resetCore s)
  | .faulted => .next (resetCore s)

/-- The call of `execute(b0)` up to its loop: Unreset raises NotReset before the budget is loaded, Idle becomes
Running, Faulted is refused (40_execute.md R104, 60_exceptions.md R166). -/
def hostStart (b0 : Nat) (s : State) : Host.Outcome State Fault Refusal :=
  match s.phase with
  | .unreset => .next (raiseFault .notReset s)
  | .idle => .next { s with budget := b0, phase := .running }
  | .running => .refused (.hostMoveNotAllowed .running)
  | .faulted => .refused (.hostMoveNotAllowed .faulted)

/-- One move of the host (60_exceptions.md R176). -/
def hostMove (m : HostMove) (s : State) : Host.Outcome State Fault Refusal :=
  match m with
  | .reset => hostReset s
  | .writeMem addr v => hostWrite (memWrite addr v) s
  | .readMem _ => hostRead s
  | .writeReg r v => hostWrite (regWrite r v) s
  | .readReg _ => hostRead s
  | .start b0 => hostStart b0 s

/-- Nothing to do in phase Faulted: the CORE has no step (60_exceptions.md R166) and the machine has stopped with the
fault of its record. -/
def coreFaulted (s : State) : Host.Outcome State Fault Refusal :=
  match s.fault with
  | some f => .fault f
  | none => .refused .faultedWithoutRecord

/-- No move of the host is left: between runs everything keeps its value, and only the host wakes the CORE
(60_exceptions.md R175). -/
def hostSilent (s : State) : Host.Outcome State Fault Refusal :=
  match s.phase with
  | .faulted => coreFaulted s
  | .unreset => .next s
  | .idle => .next s
  | .running => .next s

/-- The host's turn: its next move, taken off its list (log entry 1). A refused move is no step. -/
def hostTurn (s : State) : Host.Outcome State Fault Refusal :=
  match s.host with
  | [] => hostSilent s
  | m :: rest => hostMove m { s with host := rest }

/-! ### Outputs -/

/-- `host_mem_rdata` or `host_reg_rdata`: what a read taken in this state returns (60_exceptions.md R176). After
NotReset it is a free value (log entry 5). -/
def hostRdata (m : HostMove) (s : State) : Option Word :=
  if s.phase = .idle ∨ s.phase = .faulted then
    match m with
    | .readMem addr => some (if neverReset s then freeWord 8 s else zext16 (memRead addr s))
    | .readReg r => some (if neverReset s then freeWord (regWidth r) s else regRead r s)
    | .reset => none
    | .writeMem _ _ => none
    | .writeReg _ _ => none
    | .start _ => none
  else none

/-- `done` and `budget_out`: asserted when a run ends normally, with the final budget (40_execute.md R106). -/
def budgetOut (s : State) : Option Int :=
  if s.phase = .running ∧ s.budget ≤ 0 then some s.budget else none

/-- `fault_code` (60_exceptions.md R161). -/
def faultCode : Fault → Byte
  | .memoryRange _ => 0x81#8
  | .notReset => 0x82#8

/-- `fault_info`: the out-of-range address, or none (60_exceptions.md R161). -/
def faultInfo : Fault → Option (BitVec 17)
  | .memoryRange addr => some addr
  | .notReset => none

/-- The fault port: the record's code and info while the phase is Faulted (60_exceptions.md R176). -/
def faultOut (s : State) : Option (Byte × Option (BitVec 17)) :=
  if s.phase = .faulted then s.fault.map fun f => (faultCode f, faultInfo f) else none

end Sys2Proof.Machine
end

