-- ==== Sys2Proof/Machine/Loop.lean ====
section
/-! DEFINITION. The execute loop (40_execute.md R104-R107): its test and its end, which `step` uses, and the loop as
the spec's pseudocode writes it, one opcode fetch and one handler a time, over the fetch primitives. -/

namespace Sys2Proof.Machine

/-- The loop's test, made only at an instruction boundary (40_execute.md R105). -/
def budgetLeft (s : State) : Bool := decide (0 < s.budget)

/-- The end of a run: the phase returns to Idle; the budget is not clamped (40_execute.md R106). -/
def endRun (s : State) : State := { s with phase := .idle }

/-- The handler an opcode selects (40_execute.md R108). -/
def handlerOf (op : Byte) : State → State :=
  match dispatch op with
  | .ldaImm => handlerLdaImm
  | .ldaZp => handlerLdaZp
  | .ldaZpx => handlerLdaZpx
  | .jsrAbs => handlerJsrAbs
  | .unhandled => handlerUnhandled

/-- The loop's body: fetch one opcode byte, dispatch, run the handler (40_execute.md R104). -/
def loopBody (s : State) : State :=
  let (op, s) := fetchByte s
  handlerOf op s

/-- The loop, at most `n` times round; it leaves at once when the phase is Faulted (40_execute.md R104). -/
def runLoop : Nat → State → State
  | 0, s => s
  | n + 1, s => if s.phase = .running ∧ 0 < s.budget then runLoop n (loopBody s) else s

/-- `execute(b0)` as one call. `b0` rounds are enough, since every instruction charges at least one cycle
(40_execute.md R104, R114). The budget returned is the final state's. -/
def execute (b0 : Nat) (s : State) : Host.Outcome State Fault Refusal :=
  match s.phase with
  | .unreset => .next (raiseFault .notReset s)
  | .faulted => .refused (.hostMoveNotAllowed .faulted)
  | .running => .refused (.hostMoveNotAllowed .running)
  | .idle =>
    let t := runLoop b0 { s with budget := b0, phase := .running }
    .next (if t.phase = .faulted then t else endRun t)

end Sys2Proof.Machine
end

