-- ==== Sys2Proof/Machine/Step.lean ====
section
/-! DEFINITION. One step of the machine: the CORE moves while the phase is Running, the host otherwise (10_state.md R38,
20_memory.md R65). -/

namespace Sys2Proof.Machine

/-- While Running, at an instruction boundary: one whole instruction if the budget is positive, else the end of the run
(40_execute.md R104-R106, R113). In every other phase it is the host's turn (60_exceptions.md R176). -/
def step (s : State) : Host.Outcome State Fault Refusal :=
  match s.phase with
  | .running => if budgetLeft s then exec (fetchInstr s) s else .next (endRun s)
  | .unreset => hostTurn s
  | .idle => hostTurn s
  | .faulted => hostTurn s

/-- `s` with a table word's instruction at PC and a run in progress, so that the next step runs it (log entry 3). -/
def State.withFetchWord (s : State) (nbits w : Nat) : State := placeTableWord nbits w s

end Sys2Proof.Machine
end

