-- ==== Sys2Proof/Machine/Bus.lean ====
section
/-! DEFINITION. The memory port, cycle by cycle (20_memory.md R70, 40_execute.md R112), and the cost table (R111). An
output of the machine: `exec` does not use it. -/

namespace Sys2Proof.Machine

/-- One cycle of the memory port (20_memory.md R70). -/
inductive BusCycle where
  /-- mem_valid = 1, mem_we = 0: `mem_rdata` is `data`. -/
  | read (addr : Word) (data : Byte)
  /-- mem_valid = 1, mem_we = 1: `mem_wdata` is `data`. -/
  | write (addr : Word) (data : Byte)
  /-- mem_valid = 0: charges one cycle, no access. -/
  | internal
  /-- mem_clear = 1, during reset only: every byte becomes 0x00; charges nothing. -/
  | clear
  deriving DecidableEq, Repr

/-- A read cycle of the byte that memory holds. -/
def busRead (s : State) (addr : Word) : BusCycle := .read addr (memRead addr s)

/-- The cycles of an instruction that starts at PC in state `s`, in order (40_execute.md R112). DEDUCED (log entry 11): a
JSR whose word write is out of range stops after its three fetches (60_exceptions.md R165). -/
def busCycles (i : Instr) (s : State) : List BusCycle :=
  match i with
  | .ldaImm _ => [busRead s s.pc, busRead s (s.pc + 1)]
  | .ldaZp zp => [busRead s s.pc, busRead s (s.pc + 1), busRead s (zeroPageAddr zp)]
  | .ldaZpx zp =>
    [busRead s s.pc, busRead s (s.pc + 1), .internal, busRead s (zeroPageXAddr zp s.x)]
  | .jsrAbs _ =>
    let ret := s.pc + 2
    [busRead s s.pc, busRead s (s.pc + 1), busRead s (s.pc + 2)] ++
      if s.sp = 0xFFFF#16 then []
      else [.write s.sp (lo8 ret), .write (s.sp + 1) (hi8 ret), .internal, .internal]
  | .unhandled _ => [busRead s s.pc]

/-- What one cycle does to the AddressSpace. -/
def busApply (m : Memory) : BusCycle → Memory
  | .read _ _ => m
  | .write addr v => m.write addr.toNat v
  | .internal => m
  | .clear => Memory.zeroed

/-- What reset shows on the port: `mem_clear` is 1 "during reset" (20_memory.md R70, 70_reset_and_hazards.md R191).
DESIGN CHOICE (log entry 14; unsafe for a claim about the number): for how many cycles it stays 1 the spec leaves open,
and the model shows one. -/
def resetCycles : List BusCycle := [.clear]

/-- `mem_valid`: 1 in a cycle that accesses memory, 0 in an internal cycle (20_memory.md R70). DEDUCED for a clear cycle
(log entry 11): 0, since reset "makes no bus access on the CORE's instruction path" (70_reset_and_hazards.md R191). -/
def memValid : BusCycle → Bool
  | .read _ _ => true
  | .write _ _ => true
  | .internal => false
  | .clear => false

/-- `mem_we`: 1 for a write, 0 for a read (20_memory.md R70). DESIGN CHOICE (log entry 11; safe): in a cycle that makes
no access, internal or clear, the spec leaves its value open, and the model gives it none. -/
def memWe : BusCycle → Option Bool
  | .read _ _ => some false
  | .write _ _ => some true
  | .internal => none
  | .clear => none

/-- `mem_addr`: the address of the access (20_memory.md R70). DESIGN CHOICE (log entry 11; safe): in a cycle that makes
no access the spec leaves its value open, and the model gives it none. -/
def memAddr : BusCycle → Option Word
  | .read addr _ => some addr
  | .write addr _ => some addr
  | .internal => none
  | .clear => none

/-- `mem_wdata`: the byte to write when mem_we = 1 (20_memory.md R70). DESIGN CHOICE (log entry 11; safe): in every other
cycle the spec leaves its value open, and the model gives it none. -/
def memWdata : BusCycle → Option Byte
  | .write _ v => some v
  | .read _ _ => none
  | .internal => none
  | .clear => none

/-- `mem_rdata`: the byte read, "valid in the same cycle when mem_we = 0" (20_memory.md R70). DESIGN CHOICE (log entry
11; safe): in every other cycle the spec leaves its value open, and the model gives it none. -/
def memRdata : BusCycle → Option Byte
  | .read _ v => some v
  | .write _ _ => none
  | .internal => none
  | .clear => none

/-- `mem_clear`: 1 during reset (20_memory.md R70). DEDUCED (log entry 11): 0 in the cycles of an instruction, since it
is 1 when "the AddressSpace sets every byte to 0x00". -/
def memClear : BusCycle → Bool
  | .clear => true
  | .read _ _ => false
  | .write _ _ => false
  | .internal => false

/-- Every read of a sequence of cycles returns the byte memory holds in that cycle (20_memory.md R64, R70). -/
def busReadsMemory : Memory → List BusCycle → Bool
  | _, [] => true
  | m, .read addr v :: cs => decide (m.read addr.toNat = v) && busReadsMemory m cs
  | m, .write addr v :: cs => busReadsMemory (busApply m (.write addr v)) cs
  | m, .internal :: cs => busReadsMemory m cs
  | m, .clear :: cs => busReadsMemory (busApply m .clear) cs

/-- The cost of an instruction that runs to its end (40_execute.md R111). -/
def cycleCost : Instr → Nat
  | .ldaImm _ => 2
  | .ldaZp _ => 3
  | .ldaZpx _ => 4
  | .jsrAbs _ => 7
  | .unhandled _ => 1

end Sys2Proof.Machine
end

