-- ==== Sys2Proof/Machine/Diagnostics.lean ====
section
/-! DEFINITION. The diagnostic channel, an output and not state (10_state.md R41, 40_execute.md R110). -/

namespace Sys2Proof.Machine

/-- The event `UnhandledOpcode(opcode, P)` (40_execute.md R110). -/
structure DiagEvent where
  /-- `diag_opcode` -/
  opcode : Byte
  /-- `diag_pc`: the address the opcode was fetched from -/
  pc : Word
  deriving DecidableEq, Repr

/-- The event's code in the catalogue (60_exceptions.md R161). -/
def unhandledOpcodeCode : Byte := 0x01#8

/-- The event an instruction that starts in `s` emits, if any (40_execute.md R109). -/
def eventOf (i : Instr) (s : State) : Option DiagEvent :=
  match i with
  | .unhandled op => some ⟨op, s.pc⟩
  | .ldaImm _ => none
  | .ldaZp _ => none
  | .ldaZpx _ => none
  | .jsrAbs _ => none

/-- `diag_valid`, `diag_opcode`, `diag_pc` during the step taken in `s` (60_exceptions.md R176). -/
def diagOut (s : State) : Option DiagEvent :=
  if s.phase = .running ∧ budgetLeft s then eventOf (fetchInstr s) s else none

end Sys2Proof.Machine
end

