-- ==== Sys2Proof/Safety.lean ====
section
/-! DEFINITION. What claims about the machine speak of: its invariant, and what a final state of a run is. -/

namespace Sys2Proof.Machine

/-- The fault record is held in phase Faulted and in no other (10_state.md R40; in Unreset log entry 4). -/
def State.RecordMatchesPhase (s : State) : Prop := s.fault.isSome = true ↔ s.phase = .faulted

/-- During a run the budget is at least -6, the least final budget (40_execute.md R106). -/
def State.BudgetInRange (s : State) : Prop := s.phase = .running → -6 ≤ s.budget

/-- The one record of MemoryRangeFault there can be: "always 0x10000" (60_exceptions.md R161). -/
def State.RecordInCatalogue (s : State) : Prop :=
  ∀ addr, s.fault = some (.memoryRange addr) → addr = 0x10000#17

/-- What every state from reset on satisfies, and every step keeps. -/
structure State.Inv (s : State) : Prop where
  memory : s.mem.wf = true
  record : s.RecordMatchesPhase
  budget : s.BudgetInRange
  catalogue : s.RecordInCatalogue

/-- The values that reset gives (10_state.md R42), but for the budget, which it does not change. -/
structure State.ResetValues (t : State) : Prop where
  pc : t.pc = 0xFFFC#16
  sp : t.sp = 0x0100#16
  a : t.a = 0x00#8
  x : t.x = 0x00#8
  y : t.y = 0x00#8
  flags : t.flags.c = false ∧ t.flags.z = false ∧ t.flags.i = false ∧ t.flags.d = false ∧
    t.flags.b = false ∧ t.flags.v = false ∧ t.flags.n = false
  memory : ∀ addr, t.mem.read addr = 0x00#8
  phase : t.phase = .idle
  fault : t.fault = none

/-- The only final state of a run: phase Idle, no fault recorded (70_reset_and_hazards.md R198, 60_exceptions.md
R165). -/
def State.Final (s : State) : Prop := s.phase = .idle ∧ s.fault = none

/-- `k` steps, stopping at the first fault or refusal. -/
def runSteps : Nat → State → Host.Outcome State Fault Refusal
  | 0, s => .next s
  | k + 1, s =>
    match step s with
    | .next t => runSteps k t
    | .fault f => .fault f
    | .refused r => .refused r

/-- A run that goes on without a fault: the step is taken and its next state records none (60_exceptions.md R165). -/
def SafeStep (s : State) : Prop := ∃ t, step s = .next t ∧ t.fault = none

end Sys2Proof.Machine
end

