-- ==== Sys2Proof/Certificates/Slice0/Obligations.lean ====
section
/-! DEFINITION. The statements for the provers. Each docstring names the rule of spec/ it formalises. -/

open Sys2Proof Sys2Proof.Machine

/-! ### Encoding -/

/-- 30_encoding.md R81-R88: the decoder reads back every well-formed instruction from its own bytes, whatever follows
them. -/
def Obligations.DecodeOfEncodeIsTheInstruction : Prop :=
  ∀ (i : Instr) (rest : List Byte), i.wf = true → decode (encode i ++ rest) = .ok (i, rest)

/-- 30_encoding.md R81-R88: whatever the decoder reads is well formed, and its bytes are the bytes it was read from. -/
def Obligations.EncodeOfDecodeIsTheBytes : Prop :=
  ∀ (bytes : List Byte) (i : Instr) (rest : List Byte),
    decode bytes = .ok (i, rest) → i.wf = true ∧ encode i ++ rest = bytes

/-- 30_encoding.md R92: entries 0x20, 0xA5, 0xA9 and 0xB5 select the four handlers, every other entry the unhandled
one, and every opcode byte decodes. -/
def Obligations.EveryOpcodeByteDecodes : Prop :=
  (dispatch 0xA9#8 = .ldaImm ∧ dispatch 0xA5#8 = .ldaZp ∧ dispatch 0xB5#8 = .ldaZpx ∧ dispatch 0x20#8 = .jsrAbs) ∧
  (∀ op : Byte, op ≠ 0xA9#8 → op ≠ 0xA5#8 → op ≠ 0xB5#8 → op ≠ 0x20#8 → dispatch op = .unhandled) ∧
  ∀ (op b1 b2 : Byte) (rest : List Byte), ∃ i rest', decode (op :: b1 :: b2 :: rest) = .ok (i, rest')

/-- 30_encoding.md R81, R90: the length is a function of the opcode byte alone, and the decoder leaves just the bytes
after it. -/
def Obligations.LengthIsAFunctionOfTheOpcode : Prop :=
  ∀ (op : Byte) (operands : List Byte) (i : Instr) (rest : List Byte),
    decode (op :: operands) = .ok (i, rest) →
      i.length = (if op = 0xA9#8 ∨ op = 0xA5#8 ∨ op = 0xB5#8 then 2 else if op = 0x20#8 then 3 else 1) ∧
      rest = (op :: operands).drop i.length ∧ i.length ≤ (op :: operands).length

/-- 30_encoding.md R82, R91: one word of each format, written out from the spec, decodes to what it stands for. A
sanity statement. -/
def Obligations.WrittenOutWordsDecode : Prop :=
  decodeTableWord 16 0x84A9 = some (.ldaImm 0x84#8) ∧
  decodeTableWord 16 0x10A5 = some (.ldaZp 0x10#8) ∧
  decodeTableWord 16 0x10B5 = some (.ldaZpx 0x10#8) ∧
  decodeTableWord 24 0x123420 = some (.jsrAbs 0x1234#16) ∧
  decodeTableWord 8 0xEA = some (.unhandled 0xEA#8)

/-! ### Reset -/

/-- 10_state.md R42, 70_reset_and_hazards.md R190: after reset every piece of state has its value, and the budget is
unchanged. The last clause is about the constant State.reset, whose budget, host and freeCount are the model's choices
(log entries 1, 2, 5) and are not spoken of. -/
def Obligations.ResetLeavesTheSpecifiedValues : Prop :=
  (∀ s : State, s.phase ≠ .running →
    ∃ t, hostMove .reset s = .next t ∧ t.ResetValues ∧ t.budget = s.budget) ∧
  State.reset.ResetValues

/-- 70_reset_and_hazards.md R191: reset succeeds in every phase but Running, and a second one gives the same state. The
clause that it is refused in phase Running is the model's choice (log entry 13, DEDUCED): R191 and the text of
60_exceptions.md R176 say so, the table of R176 says "every phase" and 10_state.md R38 "any phase". -/
def Obligations.ResetMayBeRepeated : Prop :=
  ∀ s : State,
    (s.phase = .running → hostMove .reset s = .refused (.hostMoveNotAllowed .running)) ∧
    (s.phase ≠ .running → ∃ t, hostMove .reset s = .next t ∧ hostMove .reset t = .next t)

/-- The invariant holds at State.reset, and after a reset of any state whatever. -/
def Obligations.ResetSatisfiesTheInvariant : Prop :=
  State.reset.Inv ∧ ∀ s t : State, hostMove .reset s = .next t → t.Inv

/-! ### The step and the loop -/

/-- Every step keeps the invariant: memory canonical, a fault record exactly in phase Faulted (10_state.md R40), the
budget of a run at least -6 (40_execute.md R106), the range fault's info 0x10000 (60_exceptions.md R161). In phase
Unreset that the record is none is the model's choice (log entry 4). -/
def Obligations.StepKeepsTheInvariant : Prop :=
  ∀ s t : State, s.Inv → step s = .next t → t.Inv

/-- 40_execute.md R104, R113: while Running with budget left, a step is the instruction that the bytes from PC on
decode to, and nothing besides. -/
def Obligations.StepRunsTheDecodedInstruction : Prop :=
  ∀ (s : State) (i : Instr) (rest : List Byte),
    s.phase = .running → 0 < s.budget →
    decode [memRead s.pc s, memRead (s.pc + 1) s, memRead (s.pc + 2) s] = .ok (i, rest) →
    step s = exec i s

/-- 40_execute.md R105, R106: at a boundary with budget <= 0 the run ends: the phase returns to Idle, all else stays,
and the budget, not clamped, is what the host is given. -/
def Obligations.RunEndsWhenTheBudgetIsSpent : Prop :=
  ∀ s : State, s.phase = .running → s.budget ≤ 0 →
    step s = .next { s with phase := .idle } ∧ budgetOut s = some s.budget

/-- 40_execute.md R104, R108, R113: the atomic step is one round of the spec's loop, written over the fetch
primitives. -/
def Obligations.StepIsOneRoundOfTheLoop : Prop :=
  ∀ s : State, s.phase = .running → 0 < s.budget → step s = .next (loopBody s)

/-- 40_execute.md R104: `execute(b0)` as one call is what the steps from the host's start move reach. -/
def Obligations.ExecuteIsIteratedStep : Prop :=
  ∀ (s : State) (b0 : Nat) (rest : List HostMove), s.phase = .idle →
    ∃ k, k ≤ b0 + 2 ∧
      runSteps k { s with host := .start b0 :: rest } = execute b0 { s with host := rest }

/-- 40_execute.md R106, R114: every run ends, after at most b0 instructions, normally with a final budget in -6..0 or
in phase Faulted. One step starts the run and each instruction is one; a normal end is one step more, a fault is none.
That nothing resets the CORE in the middle of a run is the model's choice (log entry 13, DEDUCED). -/
def Obligations.EveryRunEnds : Prop :=
  ∀ (s : State) (b0 : Nat) (rest : List HostMove), s.Inv → s.phase = .idle → s.host = .start b0 :: rest →
    ∃ (k : Nat) (t : State), runSteps k s = .next t ∧ t.host = rest ∧
      ((k ≤ b0 + 2 ∧ t.Final ∧ -6 ≤ t.budget ∧ t.budget ≤ 0) ∨ (k ≤ b0 + 1 ∧ t.phase = .faulted))

/-- 40_execute.md R107: a run with b0 = 0 changes nothing and returns 0; the phase goes from Idle through Running back
to Idle. -/
def Obligations.ZeroBudgetRunChangesNothing : Prop :=
  ∀ (s : State) (rest : List HostMove), s.phase = .idle → s.host = .start 0 :: rest →
    ∃ t, step s = .next t ∧ t.phase = .running ∧ budgetOut t = some 0 ∧
      step t = .next { s with host := rest, budget := 0 }

/-- 60_exceptions.md R174: `execute(1)` runs exactly one instruction, whatever its cost. -/
def Obligations.ExecuteOneIsASingleStep : Prop :=
  ∀ (s : State) (i : Instr) (rest : List Byte), s.phase = .idle →
    decode [memRead s.pc s, memRead (s.pc + 1) s, memRead (s.pc + 2) s] = .ok (i, rest) →
    ∃ t, exec i { s with budget := 1, phase := .running } = .next t ∧
      execute 1 s = .next (if t.phase = .faulted then t else { t with phase := .idle })

/-- 40_execute.md R105, 30_encoding.md R89: no step of a run is refused or stops the machine, whatever the bytes. -/
def Obligations.EveryStepOfARunIsTaken : Prop :=
  ∀ s : State, s.phase = .running → ∃ t, step s = .next t

/-- 60_exceptions.md R163, R165: a step of a run is free of faults exactly when it is not a JSR with SP = 0xFFFF. -/
def Obligations.OnlyOverflowingCallIsUnsafe : Prop :=
  ∀ s : State, s.phase = .running → s.fault = none →
    (SafeStep s ↔ ¬ (0 < s.budget ∧ memRead s.pc s = 0x20#8 ∧ s.sp = 0xFFFF#16))

/-- 10_state.md R38: the phase changes only by these transitions (Unreset to Faulted is NotReset, 60_exceptions.md
R164). That the reset is not from phase Running is the model's choice (log entry 13, DEDUCED): 70_reset_and_hazards.md
R191 and the text of 60_exceptions.md R176 against R38's "any phase to Idle, by reset". -/
def Obligations.PhaseChangesOnlyAsListed : Prop :=
  ∀ s t : State, step s = .next t → t.phase ≠ s.phase →
    (s.phase ≠ .running ∧ s.host.head? = some .reset ∧ t.phase = .idle) ∨
    (s.phase = .idle ∧ (∃ b0, s.host.head? = some (.start b0)) ∧ t.phase = .running) ∨
    (s.phase = .running ∧ s.budget ≤ 0 ∧ t.phase = .idle) ∨
    (s.phase = .running ∧ 0 < s.budget ∧ t.phase = .faulted ∧ t.fault ≠ none) ∨
    (s.phase = .unreset ∧ t.phase = .faulted ∧ t.fault = some .notReset)

/-! ### The instructions, from their bytes in memory -/

/-- 41_load.md R130, LDA #imm from its bytes at PC and PC + 1. -/
def Obligations.LdaImmediateFromItsBytes : Prop :=
  ∀ s : State, s.phase = .running → 0 < s.budget → s.mem.read s.pc.toNat = 0xA9#8 →
    let imm := s.mem.read (s.pc + 1).toNat
    step s = .next { s with
      a := imm
      flags := { s.flags with z := decide (imm = 0x00#8), n := imm.getLsbD 7 }
      pc := s.pc + 2
      budget := s.budget - 2 }

/-- 41_load.md R131, LDA zp from its bytes: the data byte is at the address `zp` itself. -/
def Obligations.LdaZeroPageFromItsBytes : Prop :=
  ∀ s : State, s.phase = .running → 0 < s.budget → s.mem.read s.pc.toNat = 0xA5#8 →
    let zp := s.mem.read (s.pc + 1).toNat
    let v := s.mem.read zp.toNat
    step s = .next { s with
      a := v
      flags := { s.flags with z := decide (v = 0x00#8), n := v.getLsbD 7 }
      pc := s.pc + 2
      budget := s.budget - 3 }

/-- 41_load.md R132, LDA zp,X from its bytes: the data byte is at (zp + X) mod 256, and the addition sets no flag. -/
def Obligations.LdaZeroPageXFromItsBytes : Prop :=
  ∀ s : State, s.phase = .running → 0 < s.budget → s.mem.read s.pc.toNat = 0xB5#8 →
    let zp := s.mem.read (s.pc + 1).toNat
    let v := s.mem.read ((zp.toNat + s.x.toNat) % 256)
    step s = .next { s with
      a := v
      flags := { s.flags with z := decide (v = 0x00#8), n := v.getLsbD 7 }
      pc := s.pc + 2
      budget := s.budget - 4 }

/-- 42_subroutine.md R140, JSR abs from its bytes: the return address P + 2 goes to SP (low byte) and SP + 1 (high
byte), SP moves up by ONE; at SP = 0xFFFF MemoryRangeFault, with the state as 60_exceptions.md R165 has it. -/
def Obligations.JsrFromItsBytes : Prop :=
  ∀ s : State, s.phase = .running → 0 < s.budget → s.mem.read s.pc.toNat = 0x20#8 →
    let ret := s.pc + 2
    (s.sp ≠ 0xFFFF#16 → step s = .next { s with
      pc := (s.mem.read (s.pc + 2).toNat ++ s.mem.read (s.pc + 1).toNat : BitVec (8 + 8))
      sp := s.sp + 1
      mem := (s.mem.write s.sp.toNat (ret.setWidth 8)).write (s.sp.toNat + 1) ((ret >>> 8).setWidth 8)
      budget := s.budget - 7 }) ∧
    (s.sp = 0xFFFF#16 → step s = .next { s with
      pc := s.pc + 3
      budget := s.budget - 3
      phase := .faulted
      fault := some (.memoryRange 0x10000#17) })

/-- 40_execute.md R109, an unhandled opcode from its byte: PC + 1, one cycle, the event, and nothing else. -/
def Obligations.UnhandledOpcodeFromItsByte : Prop :=
  ∀ s : State, s.phase = .running → 0 < s.budget →
    let op := s.mem.read s.pc.toNat
    op ≠ 0xA9#8 → op ≠ 0xA5#8 → op ≠ 0xB5#8 → op ≠ 0x20#8 →
    step s = .next { s with pc := s.pc + 1, budget := s.budget - 1 } ∧
    diagOut s = some ⟨op, s.pc⟩

/-! ### The instructions, as exec -/

/-- 41_load.md R130-R132: the three forms of LDA complete in every state, with every operand. -/
def Obligations.LdaFormsComplete : Prop :=
  ∀ (s : State) (b : Byte),
    exec (.ldaImm b) s = .next { s with
      a := b
      flags := { s.flags with z := decide (b = 0x00#8), n := b.getLsbD 7 }
      pc := s.pc + 2
      budget := s.budget - 2 } ∧
    (let v := s.mem.read b.toNat
     exec (.ldaZp b) s = .next { s with
      a := v
      flags := { s.flags with z := decide (v = 0x00#8), n := v.getLsbD 7 }
      pc := s.pc + 2
      budget := s.budget - 3 }) ∧
    (let v := s.mem.read ((b.toNat + s.x.toNat) % 256)
     exec (.ldaZpx b) s = .next { s with
      a := v
      flags := { s.flags with z := decide (v = 0x00#8), n := v.getLsbD 7 }
      pc := s.pc + 2
      budget := s.budget - 4 })

/-- 42_subroutine.md R140: JSR completes whenever SP is not 0xFFFF. Read back from a memory in canonical form (which
every reachable state has, StepKeepsTheInvariant), the two bytes at SP and SP + 1 are the return address P + 2, low
byte first. -/
def Obligations.JsrCompletes : Prop :=
  ∀ (s : State) (target : Word), s.sp ≠ 0xFFFF#16 →
    ∃ t, exec (.jsrAbs target) s = .next t ∧ t.pc = target ∧ t.sp.toNat = s.sp.toNat + 1 ∧
      t.budget = s.budget - 7 ∧ t.phase = s.phase ∧ t.fault = s.fault ∧
      (s.mem.wf = true →
        t.mem.read s.sp.toNat = (s.pc + 2).setWidth 8 ∧
        t.mem.read (s.sp.toNat + 1) = ((s.pc + 2) >>> 8).setWidth 8)

/-- 60_exceptions.md R163, R165: JSR with SP = 0xFFFF takes MemoryRangeFault(0x10000), code 0x81; only PC, which is
P + 3, and the budget, charged 3, have changed besides the phase and the record. -/
def Obligations.JsrTrapsAtTheTopOfMemory : Prop :=
  ∀ (s : State) (target : Word), s.sp = 0xFFFF#16 →
    exec (.jsrAbs target) s = .next { s with
      pc := s.pc + 3
      budget := s.budget - 3
      phase := .faulted
      fault := some (.memoryRange 0x10000#17) } ∧
    faultCode (.memoryRange 0x10000#17) = 0x81#8 ∧ faultInfo (.memoryRange 0x10000#17) = some 0x10000#17

/-- 40_execute.md R109: an unhandled opcode completes in every state. -/
def Obligations.UnhandledOpcodeCompletes : Prop :=
  ∀ (s : State) (op : Byte), exec (.unhandled op) s = .next { s with pc := s.pc + 1, budget := s.budget - 1 }

/-! ### Frames and whole-machine rules -/

/-- 41_load.md R133: the LDA forms write exactly A, Z, N and PC and charge the budget; they write no memory and do not
touch SP, X, Y, C, I, D, B or V; Z and N describe the new A. -/
def Obligations.LdaFrame : Prop :=
  ∀ (s t : State) (b : Byte) (i : Instr), i = .ldaImm b ∨ i = .ldaZp b ∨ i = .ldaZpx b →
    exec i s = .next t →
    t.sp = s.sp ∧ t.x = s.x ∧ t.y = s.y ∧
    t.flags.c = s.flags.c ∧ t.flags.i = s.flags.i ∧ t.flags.d = s.flags.d ∧ t.flags.b = s.flags.b ∧
    t.flags.v = s.flags.v ∧
    t.flags.z = decide (t.a = 0x00#8) ∧ t.flags.n = t.a.getLsbD 7 ∧
    (∀ addr, t.mem.read addr = s.mem.read addr) ∧
    t.phase = s.phase ∧ t.fault = s.fault ∧ t.host = s.host ∧ t.freeCount = s.freeCount

/-- 42_subroutine.md R140: JSR leaves A, X, Y and all seven flags; of memory it changes only the bytes at SP and
SP + 1, and none when it faults. -/
def Obligations.JsrFrame : Prop :=
  ∀ (s t : State) (target : Word), exec (.jsrAbs target) s = .next t →
    t.a = s.a ∧ t.x = s.x ∧ t.y = s.y ∧ t.flags = s.flags ∧ t.host = s.host ∧ t.freeCount = s.freeCount ∧
    (∀ addr, addr ≠ s.sp.toNat → addr ≠ s.sp.toNat + 1 → t.mem.read addr = s.mem.read addr) ∧
    (s.sp ≠ 0xFFFF#16 → t.phase = s.phase ∧ t.fault = s.fault) ∧
    (s.sp = 0xFFFF#16 → t.sp = s.sp ∧ ∀ addr, t.mem.read addr = s.mem.read addr)

/-- 40_execute.md R109, 30_encoding.md R89: an unhandled opcode changes PC and the budget and nothing else. -/
def Obligations.UnhandledOpcodeFrame : Prop :=
  ∀ (s t : State) (op : Byte), exec (.unhandled op) s = .next t →
    t.sp = s.sp ∧ t.a = s.a ∧ t.x = s.x ∧ t.y = s.y ∧ t.flags = s.flags ∧
    (∀ addr, t.mem.read addr = s.mem.read addr) ∧
    t.phase = s.phase ∧ t.fault = s.fault ∧ t.host = s.host ∧ t.freeCount = s.freeCount

/-- 10_state.md R27, R28, R31, R33: no instruction writes X, Y, C, I, D, B or V, and only LDA writes A, Z and N. -/
def Obligations.WhatNoInstructionWrites : Prop :=
  ∀ (i : Instr) (s t : State), exec i s = .next t →
    t.x = s.x ∧ t.y = s.y ∧
    t.flags.c = s.flags.c ∧ t.flags.i = s.flags.i ∧ t.flags.d = s.flags.d ∧ t.flags.b = s.flags.b ∧
    t.flags.v = s.flags.v ∧
    ((t.a ≠ s.a ∨ t.flags.z ≠ s.flags.z ∨ t.flags.n ≠ s.flags.n) →
      ∃ b, i = .ldaImm b ∨ i = .ldaZp b ∨ i = .ldaZpx b)

/-- 10_state.md R28, R31, R33: no flag and not Y is read by any instruction. With other values there, a step of a run
does the same to everything else and leaves Y, C, I, D, B and V at those other values. Z and N come out the same where
the step is an LDA; any other step keeps all seven flags, whichever they are. -/
def Obligations.NoInstructionReadsFlagsOrY : Prop :=
  ∀ (s t : State) (f : Flags) (y : Byte), s.phase = .running → step s = .next t →
    ∃ t', step { s with flags := f, y := y } = .next t' ∧
      { t' with flags := t.flags, y := t.y } = t ∧ t'.y = y ∧
      t'.flags.c = f.c ∧ t'.flags.i = f.i ∧ t'.flags.d = f.d ∧ t'.flags.b = f.b ∧ t'.flags.v = f.v ∧
      if 0 < s.budget ∧ (memRead s.pc s = 0xA9#8 ∨ memRead s.pc s = 0xA5#8 ∨ memRead s.pc s = 0xB5#8)
      then t'.flags.z = t.flags.z ∧ t'.flags.n = t.flags.n
      else t'.flags = f ∧ t.flags = s.flags

/-- 10_state.md R22, R23, 60_exceptions.md R165: PC after each instruction, with P the address of the opcode, modulo
2^16. -/
def Obligations.PcAfterEachInstruction : Prop :=
  ∀ (i : Instr) (s t : State), exec i s = .next t →
    t.pc.toNat = match i with
      | .ldaImm _ => (s.pc.toNat + 2) % 65536
      | .ldaZp _ => (s.pc.toNat + 2) % 65536
      | .ldaZpx _ => (s.pc.toNat + 2) % 65536
      | .jsrAbs target => if s.sp = 0xFFFF#16 then (s.pc.toNat + 3) % 65536 else target.toNat
      | .unhandled _ => (s.pc.toNat + 1) % 65536

/-- 40_execute.md R111: the cycle cost of each instruction; a JSR that faults has been charged 3 (60_exceptions.md
R165). -/
def Obligations.CycleCosts : Prop :=
  ∀ (i : Instr) (s t : State), exec i s = .next t →
    s.budget - t.budget = match i with
      | .ldaImm _ => 2
      | .ldaZp _ => 3
      | .ldaZpx _ => 4
      | .jsrAbs _ => if s.sp = 0xFFFF#16 then 3 else 7
      | .unhandled _ => 1

/-- 20_memory.md R51, R59: the only bytes an instruction stores are those at SP and SP + 1, by JSR. -/
def Obligations.OnlyJsrStores : Prop :=
  ∀ (i : Instr) (s t : State) (addr : Nat), exec i s = .next t → t.mem.read addr ≠ s.mem.read addr →
    ∃ target, i = .jsrAbs target ∧ s.sp ≠ 0xFFFF#16 ∧ (addr = s.sp.toNat ∨ addr = s.sp.toNat + 1)

/-- 10_state.md R24, R25: only JSR changes SP, by +1, and SP never wraps through it. -/
def Obligations.SpNeverWrapsThroughJsr : Prop :=
  ∀ (i : Instr) (s t : State), exec i s = .next t →
    t.sp = s.sp ∨ ((∃ target, i = .jsrAbs target) ∧ t.sp.toNat = s.sp.toNat + 1)

/-- 60_exceptions.md R163: exactly one access can raise MemoryRangeFault, JSR's high-byte write at SP = 0xFFFF, and
the info is 0x10000. -/
def Obligations.FaultOnlyFromOverflowingCall : Prop :=
  ∀ (i : Instr) (s t : State), s.fault = none → exec i s = .next t →
    (t.fault ≠ none ↔ (∃ target, i = .jsrAbs target) ∧ s.sp = 0xFFFF#16) ∧
    (t.fault ≠ none → t.fault = some (.memoryRange 0x10000#17) ∧ t.phase = .faulted)

/-- 42_subroutine.md R141: two calls in a row. The second return address starts on the first one's high byte, so only
the last one is whole, and SP has moved by two. -/
def Obligations.SuccessiveCallsOverlap : Prop :=
  ∀ (s t u : State) (first second : Word), s.mem.wf = true → s.sp.toNat + 2 ≤ 0xFFFF →
    exec (.jsrAbs first) s = .next t → exec (.jsrAbs second) t = .next u →
    u.sp.toNat = s.sp.toNat + 2 ∧
    u.mem.read s.sp.toNat = (s.pc + 2).setWidth 8 ∧
    u.mem.read (s.sp.toNat + 1) = (first + 2).setWidth 8 ∧
    u.mem.read (s.sp.toNat + 2) = ((first + 2) >>> 8).setWidth 8

/-- 20_memory.md R68, 70_reset_and_hazards.md R196: the opcode fetched after a JSR is the byte its own stack write put
at the target, if it put one there, and the byte that was there before if not. -/
def Obligations.FetchSeesTheStackWrite : Prop :=
  ∀ (s t : State) (target : Word), s.mem.wf = true → s.sp ≠ 0xFFFF#16 →
    exec (.jsrAbs target) s = .next t →
    (fetchByte t).1 =
      if target = s.sp then (s.pc + 2).setWidth 8
      else if target = s.sp + 1 then ((s.pc + 2) >>> 8).setWidth 8
      else s.mem.read target.toNat

/-! ### Primitives and operands -/

/-- 40_execute.md R100, R101, R103: the fetch primitives and Internal, and ReadByteAt beside them. They change the
fields named and no flag, and the high byte of a word is fetched at the incremented PC. -/
def Obligations.FetchPrimitives : Prop :=
  ∀ (s : State) (addr : Word),
    fetchByte s = (memRead s.pc s, { s with pc := s.pc + 1, budget := s.budget - 1 }) ∧
    fetchWordLE s =
      ((memRead (s.pc + 1) s ++ memRead s.pc s : BitVec (8 + 8)),
        { s with pc := s.pc + 2, budget := s.budget - 2 }) ∧
    readByteAt addr s = (memRead addr s, { s with budget := s.budget - 1 }) ∧
    internal s = { s with budget := s.budget - 1 }

/-- 20_memory.md R54, R55: a word write stores the low byte at `addr` and the high byte at `addr + 1` and charges 2;
at 0xFFFF it raises MemoryRangeFault(0x10000) and there is no state in which a byte was written. -/
def Obligations.WordWrite : Prop :=
  ∀ (s : State) (addr w : Word),
    (addr = 0xFFFF#16 → memWriteWordLE addr w s = .error (.memoryRange 0x10000#17)) ∧
    (addr ≠ 0xFFFF#16 → ∃ t, memWriteWordLE addr w s = .ok t ∧
      (∀ a, a ≠ addr.toNat → a ≠ addr.toNat + 1 → t.mem.read a = s.mem.read a) ∧
      { t with mem := s.mem } = { s with budget := s.budget - 2 } ∧
      (s.mem.wf = true →
        t.mem.read addr.toNat = w.setWidth 8 ∧ t.mem.read (addr.toNat + 1) = (w >>> 8).setWidth 8))

/-- 10_state.md R32: the flag helper. -/
def Obligations.FlagHelper : Prop :=
  ∀ s : State, updateFlags s =
    { s with flags := { s.flags with z := decide (s.a = 0x00#8), n := s.a.getLsbD 7 } }

/-- 30_encoding.md R84, R85: both zero-page forms name an address in 0x0000..0x00FF, the indexed one modulo 256. -/
def Obligations.ZeroPageAddresses : Prop :=
  ∀ zp x : Byte,
    (zeroPageAddr zp).toNat = zp.toNat ∧ (zeroPageAddr zp).toNat ≤ 0x00FF ∧
    (zeroPageXAddr zp x).toNat = (zp.toNat + x.toNat) % 256 ∧ (zeroPageXAddr zp x).toNat ≤ 0x00FF

/-- 40_execute.md R112, R197, 20_memory.md R70: the bus sequence of each instruction is its row of R112, read by read
and write by write with their addresses; it has one cycle per cycle charged, its reads return what memory holds in their
cycle, and its writes make the memory that the instruction leaves. The sequence of a JSR that faults (SP = 0xFFFF) is no
row of R112: that it is the three fetches and no more is the model's choice (log entry 11, DEDUCED). -/
def Obligations.BusSequenceAgrees : Prop :=
  (∀ (i : Instr) (s : State),
    let rd (addr : Word) : BusCycle := .read addr (s.mem.read addr.toNat)
    busCycles i s = match i with
      | .ldaImm _ => [rd s.pc, rd (s.pc + 1)]
      | .ldaZp zp => [rd s.pc, rd (s.pc + 1), rd (zp.setWidth 16)]
      | .ldaZpx zp => [rd s.pc, rd (s.pc + 1), .internal, rd ((zp + s.x).setWidth 16)]
      | .jsrAbs _ =>
        if s.sp = 0xFFFF#16 then [rd s.pc, rd (s.pc + 1), rd (s.pc + 2)]
        else [rd s.pc, rd (s.pc + 1), rd (s.pc + 2), .write s.sp ((s.pc + 2).setWidth 8),
          .write (s.sp + 1) (((s.pc + 2) >>> 8).setWidth 8), .internal, .internal]
      | .unhandled _ => [rd s.pc]) ∧
  ∀ (i : Instr) (s t : State), exec i s = .next t →
    ((busCycles i s).length : Int) = s.budget - t.budget ∧
    busReadsMemory s.mem (busCycles i s) = true ∧
    (busCycles i s).foldl busApply s.mem = t.mem

/-- 40_execute.md R109, R110: the event is emitted exactly by a step of a run at an unhandled opcode, and carries the
opcode byte and the address it was fetched from. -/
def Obligations.EventExactlyAtUnhandledOpcodes : Prop :=
  ∀ (s : State) (e : DiagEvent),
    diagOut s = some e ↔
      s.phase = .running ∧ 0 < s.budget ∧ dispatch (memRead s.pc s) = .unhandled ∧ e = ⟨memRead s.pc s, s.pc⟩

/-! ### Faults and the host -/

/-- 60_exceptions.md R166: a fault is sticky. In phase Faulted the CORE has no step of its own, `execute` and every
write is refused, the host may read, only reset leaves the phase and clears the record, and any other step leaves
phase, record, registers, memory and budget as they are. -/
def Obligations.FaultIsSticky : Prop :=
  ∀ s : State, s.phase = .faulted →
    (s.host = [] → ∀ t, step s ≠ .next t) ∧
    (∀ b0, hostMove (.start b0) s = .refused (.hostMoveNotAllowed .faulted)) ∧
    (∀ addr v, hostMove (.writeMem addr v) s = .refused (.hostMoveNotAllowed .faulted)) ∧
    (∀ r v, hostMove (.writeReg r v) s = .refused (.hostMoveNotAllowed .faulted)) ∧
    (∀ addr, ∃ t, hostMove (.readMem addr) s = .next t ∧ (hostRdata (.readMem addr) s).isSome = true) ∧
    (∀ r, ∃ t, hostMove (.readReg r) s = .next t ∧ (hostRdata (.readReg r) s).isSome = true) ∧
    (∃ t, hostMove .reset s = .next t ∧ t.phase = .idle ∧ t.fault = none) ∧
    (∀ t, step s = .next t → s.host.head? ≠ some .reset →
      { t with host := s.host, freeCount := s.freeCount } = s)

/-- 10_state.md R39, 60_exceptions.md R164: in phase Unreset a run and every read raise NotReset, code 0x82, and a
write has no lasting effect: after the reset that follows it the state is as without it. -/
def Obligations.NotResetBeforeReset : Prop :=
  ∀ s : State, s.phase = .unreset →
    (∀ b0, hostMove (.start b0) s = .next { s with phase := .faulted, fault := some .notReset }) ∧
    (∀ addr, hostMove (.readMem addr) s = .next { s with phase := .faulted, fault := some .notReset }) ∧
    (∀ r, hostMove (.readReg r) s = .next { s with phase := .faulted, fault := some .notReset }) ∧
    (∀ addr v, ∃ t, hostMove (.writeMem addr v) s = .next t ∧ hostMove .reset t = hostMove .reset s) ∧
    (∀ r v, ∃ t, hostMove (.writeReg r v) s = .next t ∧ hostMove .reset t = hostMove .reset s) ∧
    faultCode .notReset = 0x82#8

/-- 20_memory.md R65, 60_exceptions.md R176: during a run every move of the host is refused, the step does not use the
host's list, and leaves it as it is. That reset is among the refused moves is the model's choice (log entry 13,
DEDUCED): the text of R176 and 70_reset_and_hazards.md R191 say so, the table of R176 allows reset in "every phase". -/
def Obligations.HostDoesNotActDuringARun : Prop :=
  ∀ s : State, s.phase = .running →
    (∀ m, hostMove m s = .refused (.hostMoveNotAllowed .running)) ∧
    (∀ t h, step s = .next t → t.host = s.host ∧ step { s with host := h } = .next { t with host := h })

/-- 60_exceptions.md R176: what the host writes to a register or flag while Idle it reads back, cut to the register's
width, and every other register, memory and the budget stay. The reading itself is a move that is taken and leaves the
whole state as it is, before the write and after it. -/
def Obligations.HostRegisterWriteIsReadBack : Prop :=
  ∀ (s : State) (r : HostReg) (v : Word), s.phase = .idle → s.fault = none →
    ∃ t, hostMove (.writeReg r v) s = .next t ∧
      hostRdata (.readReg r) t = some ((v.setWidth (regWidth r)).setWidth 16) ∧
      (∀ r', r' ≠ r → hostRdata (.readReg r') t = hostRdata (.readReg r') s) ∧
      t.mem = s.mem ∧ t.budget = s.budget ∧ t.phase = .idle ∧ t.fault = none ∧
      ∀ r', hostMove (.readReg r') s = .next s ∧ hostMove (.readReg r') t = .next t

/-- 20_memory.md R53, R60, 60_exceptions.md R176: a byte the host writes while Idle is read back, zero-extended, no other
byte changes, and no register, flag or budget does. The reading itself is a move that is taken and leaves the whole
state as it is, before the write and after it. -/
def Obligations.HostMemoryWriteIsReadBack : Prop :=
  ∀ (s : State) (addr : Word) (v : Byte), s.phase = .idle → s.fault = none → s.mem.wf = true →
    ∃ t, hostMove (.writeMem addr v) s = .next t ∧
      hostRdata (.readMem addr) t = some (v.setWidth 16) ∧
      (∀ a, a ≠ addr → hostRdata (.readMem a) t = hostRdata (.readMem a) s) ∧
      { t with mem := s.mem } = s ∧
      ∀ a, hostMove (.readMem a) s = .next s ∧ hostMove (.readMem a) t = .next t

/-- 60_exceptions.md R175: between runs, with the host making no move, everything keeps its value. -/
def Obligations.IdleKeepsEverything : Prop :=
  ∀ s : State, s.phase = .idle → s.host = [] → step s = .next s

/-- 10_state.md R38, 40_execute.md R104: `execute(b0)` in phase Idle loads the budget, enters Running and changes
nothing else, so a second run goes on from the state the first one left (60_exceptions.md R175). -/
def Obligations.StartLoadsTheBudget : Prop :=
  ∀ (s : State) (b0 : Nat) (rest : List HostMove), s.phase = .idle → s.host = .start b0 :: rest →
    step s = .next { s with budget := b0, phase := .running, host := rest }
end

