-- ==== Sys2Proof/Laws/Bytes.lean ====
section
/-! SUPPORT. A word and its two bytes. -/

namespace Sys2Proof.Machine

@[simp] theorem lo8_wordOf (lo hi : Byte) : lo8 (wordOf lo hi) = lo := by
  apply BitVec.eq_of_getLsbD_eq
  intro i hi'
  simp [lo8, wordOf, zext16, hi']
  omega

@[simp] theorem hi8_wordOf (lo hi : Byte) : hi8 (wordOf lo hi) = hi := by
  apply BitVec.eq_of_getLsbD_eq
  intro i hi'
  have h : ¬ 8 + i < 8 := by omega
  have h2 : 8 + i < 16 := by omega
  simp [hi8, wordOf, zext16, hi', h2]

@[simp] theorem wordOf_lo8_hi8 (w : Word) : wordOf (lo8 w) (hi8 w) = w := by
  apply BitVec.eq_of_getLsbD_eq
  intro i hi'
  by_cases h : i < 8
  · simp [lo8, hi8, wordOf, zext16, h, hi']
  · have h2 : i - 8 < 8 := by omega
    have h3 : 8 + (i - 8) = i := by omega
    simp [lo8, hi8, wordOf, zext16, h, hi', h2, h3]

/-- A word is its high byte in front of its low byte. -/
theorem wordOf_eq_append (lo hi : Byte) : wordOf lo hi = (hi ++ lo : BitVec (8 + 8)) := by
  apply BitVec.eq_of_getLsbD_eq
  intro i hi'
  by_cases h : i < 8
  · rw [BitVec.getLsbD_append]; simp [wordOf, zext16, h, hi']
  · have h2 : i - 8 < 8 := by omega
    rw [BitVec.getLsbD_append]
    simp [wordOf, zext16, h, hi', h2, BitVec.getLsbD_of_ge lo i (by omega)]

theorem lo8_eq_setWidth (w : Word) : lo8 w = w.setWidth 8 := by
  apply BitVec.eq_of_getLsbD_eq
  intro i hi
  simp [lo8, hi]

theorem hi8_eq_setWidth (w : Word) : hi8 w = (w >>> 8).setWidth 8 := by
  apply BitVec.eq_of_getLsbD_eq
  intro i hi
  simp [hi8, hi]

theorem zext16_toNat (b : Byte) : (zext16 b).toNat = b.toNat := by
  simp [zext16]; omega

end Sys2Proof.Machine
end

