-- ==== Sys2Proof/Laws/Decode.lean ====
section
/-! SUPPORT. What dispatch and the decoder do. -/

namespace Sys2Proof

@[simp] theorem dispatch_A9 : dispatch 0xA9#8 = .ldaImm := rfl
@[simp] theorem dispatch_A5 : dispatch 0xA5#8 = .ldaZp := rfl
@[simp] theorem dispatch_B5 : dispatch 0xB5#8 = .ldaZpx := rfl
@[simp] theorem dispatch_20 : dispatch 0x20#8 = .jsrAbs := rfl

/-- The opcodes without a handler are exactly those that are well formed as unhandled ones. -/
theorem dispatch_unhandled_iff (op : Byte) :
    dispatch op = .unhandled ↔ (Instr.unhandled op).wf = true := by
  unfold dispatch
  simp only [Instr.wf, decodedOpcodes, List.contains_eq_mem, List.mem_cons, List.not_mem_nil, or_false]
  split_ifs <;> simp_all

/-- When the decoder reads an instruction, and which: the opcode's operand bytes are there, and they alone are taken. -/
theorem decode_cons_ok (op : Byte) (bs : List Byte) (i : Instr) (rest : List Byte) :
    decode (op :: bs) = .ok (i, rest) ↔
      operandBytes (dispatch op) ≤ bs.length ∧ instrOf op (bs.getD 0 0) (bs.getD 1 0) = i ∧
        bs.drop (operandBytes (dispatch op)) = rest := by
  show (if _ then _ else _) = _ ↔ _
  split
  · simp; omega
  · rw [Except.ok.injEq, Prod.mk.injEq]
    exact ⟨fun h => ⟨by omega, h⟩, fun h => h.2⟩

/-- The five cases of an opcode byte. -/
theorem opcode_cases (op : Byte) :
    op = 0xA9#8 ∨ op = 0xA5#8 ∨ op = 0xB5#8 ∨ op = 0x20#8 ∨ dispatch op = .unhandled := by
  unfold dispatch
  split_ifs <;> simp_all

end Sys2Proof
end

