-- ==== Sys2Proof/Laws/Memory.lean ====
section
/-! SUPPORT. The laws of memory: a read after a write, and the canonical form (20_memory.md R52, R53, R60). -/

namespace Sys2Proof.Machine

theorem Memory.wfFrom_cons {lo k : Nat} {v : Byte} {m : Memory} :
    Memory.wfFrom lo ((k, v) :: m) = true ↔
      (lo ≤ k ∧ k < Config.memorySize ∧ v ≠ 0x00#8) ∧ Memory.wfFrom (k + 1) m = true := by
  simp [Memory.wfFrom]

/-- A memory whose addresses start at `hi` also starts at any lower address. -/
theorem Memory.wfFrom_mono {lo hi : Nat} {m : Memory} (h : lo ≤ hi) (hm : Memory.wfFrom hi m = true) :
    Memory.wfFrom lo m = true := by
  cases m with
  | nil => rfl
  | cons c m =>
    obtain ⟨k, v⟩ := c
    rw [Memory.wfFrom_cons] at hm ⊢
    exact ⟨⟨h.trans hm.1.1, hm.1.2⟩, hm.2⟩

/-- Below the first listed address every byte reads 0x00. -/
theorem Memory.read_below {lo a : Nat} {m : Memory} (hm : Memory.wfFrom lo m = true) (h : a < lo) :
    Memory.read m a = 0x00#8 := by
  induction m generalizing lo with
  | nil => rfl
  | cons c m ih =>
    obtain ⟨k, v⟩ := c
    rw [Memory.wfFrom_cons] at hm
    rw [Memory.read, if_neg (by omega)]
    exact ih hm.2 (by omega)

theorem Memory.read_cell_same {a : Nat} {v : Byte} {m : Memory} (h : Memory.read m a = 0x00#8) :
    Memory.read (Memory.cell a v m) a = v := by
  unfold Memory.cell
  split
  · simp [*]
  · simp [Memory.read]

theorem Memory.read_cell_other {a b : Nat} {v : Byte} {m : Memory} (h : b ≠ a) :
    Memory.read (Memory.cell a v m) b = Memory.read m b := by
  unfold Memory.cell
  split
  · rfl
  · simp [Memory.read, h]

theorem Memory.cell_wf {lo a : Nat} {v : Byte} {m : Memory} (hlo : lo ≤ a) (ha : a < Config.memorySize)
    (hm : Memory.wfFrom (a + 1) m = true) : Memory.wfFrom lo (Memory.cell a v m) = true := by
  unfold Memory.cell
  split
  · exact Memory.wfFrom_mono (by omega) hm
  · exact Memory.wfFrom_cons.2 ⟨⟨hlo, ha, ‹_›⟩, hm⟩

theorem Memory.read_write_same_from {lo a : Nat} {v : Byte} {m : Memory}
    (hm : Memory.wfFrom lo m = true) : Memory.read (Memory.write m a v) a = v := by
  induction m generalizing lo with
  | nil => exact Memory.read_cell_same rfl
  | cons c m ih =>
    obtain ⟨k, u⟩ := c
    obtain ⟨hk, hm'⟩ := Memory.wfFrom_cons.1 hm
    unfold Memory.write
    split
    · exact Memory.read_cell_same
        (Memory.read_below (lo := k) (Memory.wfFrom_cons.2 ⟨⟨le_rfl, hk.2⟩, hm'⟩) ‹_›)
    · split
      · exact Memory.read_cell_same (Memory.read_below hm' (by omega))
      · rw [Memory.read, if_neg ‹_›]; exact ih hm'

/-- A read after a write to the same address gives the byte written. -/
theorem Memory.read_write_same {a : Nat} {v : Byte} {m : Memory} (hm : m.wf = true) :
    (m.write a v).read a = v :=
  Memory.read_write_same_from hm

/-- A write leaves every other address alone. -/
theorem Memory.read_write_other {a b : Nat} {v : Byte} {m : Memory} (h : b ≠ a) :
    (m.write a v).read b = m.read b := by
  induction m with
  | nil => exact Memory.read_cell_other h
  | cons c m ih =>
    obtain ⟨k, u⟩ := c
    unfold Memory.write
    split
    · exact Memory.read_cell_other h
    · split
      · rw [Memory.read_cell_other h, Memory.read, if_neg (by omega)]
      · unfold Memory.read
        split
        · rfl
        · exact ih

theorem Memory.write_wfFrom {lo a : Nat} {v : Byte} {m : Memory} (hlo : lo ≤ a)
    (ha : a < Config.memorySize) (hm : Memory.wfFrom lo m = true) :
    Memory.wfFrom lo (Memory.write m a v) = true := by
  induction m generalizing lo with
  | nil => exact Memory.cell_wf hlo ha rfl
  | cons c m ih =>
    obtain ⟨k, u⟩ := c
    obtain ⟨hk, hm'⟩ := Memory.wfFrom_cons.1 hm
    unfold Memory.write
    split
    · exact Memory.cell_wf hlo ha (Memory.wfFrom_cons.2 ⟨⟨by omega, hk.2⟩, hm'⟩)
    · split
      · exact Memory.cell_wf hlo ha (Memory.wfFrom_mono (by omega) hm')
      · exact Memory.wfFrom_cons.2 ⟨hk, ih (by omega) hm'⟩

/-- A write keeps the canonical form. -/
theorem Memory.write_wf {m : Memory} (addr : Word) (v : Byte) (hm : m.wf = true) :
    (m.write addr.toNat v).wf = true :=
  Memory.write_wfFrom (Nat.zero_le _) (by simpa [Config.memorySize] using addr.isLt) hm

theorem memWrite_wf (addr : Word) (v : Byte) {s : State} (h : s.mem.wf = true) :
    (memWrite addr v s).mem.wf = true :=
  Memory.write_wf addr v h

theorem memWriteWordLE_wf {addr w : Word} {s t : State} (h : memWriteWordLE addr w s = .ok t)
    (hs : s.mem.wf = true) : t.mem.wf = true := by
  unfold memWriteWordLE at h
  split at h
  · cases h
  · cases h
    exact memWrite_wf _ _ (memWrite_wf _ _ hs)

/-- Two bytes written one after the other read back, and nothing else has changed. -/
theorem Memory.read_write_pair {m : Memory} (hm : m.wf = true) (addr : Word) (u v : Byte) :
    ((m.write addr.toNat u).write (addr.toNat + 1) v).read addr.toNat = u ∧
    ((m.write addr.toNat u).write (addr.toNat + 1) v).read (addr.toNat + 1) = v :=
  ⟨by rw [Memory.read_write_other (by omega), Memory.read_write_same hm],
    Memory.read_write_same (Memory.write_wf _ _ hm)⟩

theorem Memory.read_write_pair_other {m : Memory} {a b : Nat} (u v : Byte) (h : b ≠ a) (h' : b ≠ a + 1) :
    ((m.write a u).write (a + 1) v).read b = m.read b := by
  rw [Memory.read_write_other h', Memory.read_write_other h]

theorem zeroed_wf : Memory.zeroed.wf = true := rfl

theorem reset_memory_wf : State.reset.mem.wf = true := rfl

/-- In canonical form, two memories that read alike everywhere are equal lists. -/
theorem Memory.ext_from {lo : Nat} {m m' : Memory} (hm : Memory.wfFrom lo m = true)
    (hm' : Memory.wfFrom lo m' = true) (h : ∀ a, m.read a = m'.read a) : m = m' := by
  induction m generalizing lo m' with
  | nil =>
    cases m' with
    | nil => rfl
    | cons c m' =>
      obtain ⟨k, v⟩ := c
      have hk := (Memory.wfFrom_cons.1 hm').1.2.2
      exact absurd (by simpa [Memory.read] using (h k).symm) hk
  | cons c m ih =>
    obtain ⟨k, v⟩ := c
    obtain ⟨hk, hmk⟩ := Memory.wfFrom_cons.1 hm
    cases m' with
    | nil => exact absurd (by simpa [Memory.read] using h k) hk.2.2
    | cons c' m' =>
      obtain ⟨k', v'⟩ := c'
      obtain ⟨hk', hmk'⟩ := Memory.wfFrom_cons.1 hm'
      have hlt : ¬ k < k' := fun hlt => hk.2.2 <| by
        have := h k
        rwa [Memory.read, if_pos rfl, Memory.read_below (lo := k')
          (Memory.wfFrom_cons.2 ⟨⟨le_rfl, hk'.2⟩, hmk'⟩) hlt] at this
      have hgt : ¬ k' < k := fun hgt => hk'.2.2 <| by
        have := (h k').symm
        rwa [Memory.read, if_pos rfl, Memory.read_below (lo := k)
          (Memory.wfFrom_cons.2 ⟨⟨le_rfl, hk.2⟩, hmk⟩) hgt] at this
      obtain rfl : k = k' := by omega
      have hv : v = v' := by simpa [Memory.read] using h k
      subst hv
      congr 1
      refine ih hmk hmk' fun a => ?_
      by_cases ha : a = k
      · subst ha
        rw [Memory.read_below hmk (by omega), Memory.read_below hmk' (by omega)]
      · simpa [Memory.read, ha] using h a

theorem Memory.ext {m m' : Memory} (hm : m.wf = true) (hm' : m'.wf = true)
    (h : ∀ a, m.read a = m'.read a) : m = m' :=
  Memory.ext_from hm hm' h

end Sys2Proof.Machine
end

