-- ==== Sys2Proof/Laws/State.lean ====
section
/-! SUPPORT. What each named update of State leaves in each field, true by rfl. -/

namespace Sys2Proof.Machine

@[simp] theorem memWrite_fields (addr : Word) (v : Byte) (s : State) :
    (memWrite addr v s).pc = s.pc ∧ (memWrite addr v s).sp = s.sp ∧ (memWrite addr v s).a = s.a ∧
    (memWrite addr v s).x = s.x ∧ (memWrite addr v s).y = s.y ∧ (memWrite addr v s).flags = s.flags ∧
    (memWrite addr v s).mem = s.mem.write addr.toNat v ∧ (memWrite addr v s).budget = s.budget ∧
    (memWrite addr v s).phase = s.phase ∧ (memWrite addr v s).fault = s.fault ∧
    (memWrite addr v s).host = s.host ∧ (memWrite addr v s).freeCount = s.freeCount :=
  ⟨rfl, rfl, rfl, rfl, rfl, rfl, rfl, rfl, rfl, rfl, rfl, rfl⟩

@[simp] theorem charge_fields (n : Nat) (s : State) :
    (charge n s).pc = s.pc ∧ (charge n s).sp = s.sp ∧ (charge n s).a = s.a ∧ (charge n s).x = s.x ∧
    (charge n s).y = s.y ∧ (charge n s).flags = s.flags ∧ (charge n s).mem = s.mem ∧
    (charge n s).budget = s.budget - n ∧ (charge n s).phase = s.phase ∧ (charge n s).fault = s.fault ∧
    (charge n s).host = s.host ∧ (charge n s).freeCount = s.freeCount :=
  ⟨rfl, rfl, rfl, rfl, rfl, rfl, rfl, rfl, rfl, rfl, rfl, rfl⟩

@[simp] theorem internal_fields (s : State) :
    (internal s).pc = s.pc ∧ (internal s).sp = s.sp ∧ (internal s).a = s.a ∧ (internal s).x = s.x ∧
    (internal s).y = s.y ∧ (internal s).flags = s.flags ∧ (internal s).mem = s.mem ∧
    (internal s).budget = s.budget - 1 ∧ (internal s).phase = s.phase ∧ (internal s).fault = s.fault ∧
    (internal s).host = s.host ∧ (internal s).freeCount = s.freeCount :=
  ⟨rfl, rfl, rfl, rfl, rfl, rfl, rfl, rfl, rfl, rfl, rfl, rfl⟩

@[simp] theorem passBytes_fields (n : Nat) (s : State) :
    (passBytes n s).pc = s.pc + BitVec.ofNat 16 n ∧ (passBytes n s).sp = s.sp ∧ (passBytes n s).a = s.a ∧
    (passBytes n s).x = s.x ∧ (passBytes n s).y = s.y ∧ (passBytes n s).flags = s.flags ∧
    (passBytes n s).mem = s.mem ∧ (passBytes n s).budget = s.budget - n ∧ (passBytes n s).phase = s.phase ∧
    (passBytes n s).fault = s.fault ∧ (passBytes n s).host = s.host ∧
    (passBytes n s).freeCount = s.freeCount :=
  ⟨rfl, rfl, rfl, rfl, rfl, rfl, rfl, rfl, rfl, rfl, rfl, rfl⟩

@[simp] theorem raiseFault_fields (f : Fault) (s : State) :
    (raiseFault f s).pc = s.pc ∧ (raiseFault f s).sp = s.sp ∧ (raiseFault f s).a = s.a ∧
    (raiseFault f s).x = s.x ∧ (raiseFault f s).y = s.y ∧ (raiseFault f s).flags = s.flags ∧
    (raiseFault f s).mem = s.mem ∧ (raiseFault f s).budget = s.budget ∧
    (raiseFault f s).phase = .faulted ∧ (raiseFault f s).fault = some f ∧
    (raiseFault f s).host = s.host ∧ (raiseFault f s).freeCount = s.freeCount :=
  ⟨rfl, rfl, rfl, rfl, rfl, rfl, rfl, rfl, rfl, rfl, rfl, rfl⟩

@[simp] theorem resetCore_fields (s : State) :
    (resetCore s).pc = 0xFFFC#16 ∧ (resetCore s).sp = 0x0100#16 ∧ (resetCore s).a = 0x00#8 ∧
    (resetCore s).x = 0x00#8 ∧ (resetCore s).y = 0x00#8 ∧
    (resetCore s).flags = ⟨false, false, false, false, false, false, false⟩ ∧
    (resetCore s).mem = [] ∧ (resetCore s).budget = s.budget ∧ (resetCore s).phase = .idle ∧
    (resetCore s).fault = none ∧ (resetCore s).host = s.host ∧ (resetCore s).freeCount = s.freeCount :=
  ⟨rfl, rfl, rfl, rfl, rfl, rfl, rfl, rfl, rfl, rfl, rfl, rfl⟩

@[simp] theorem updateFlags_fields (s : State) :
    (updateFlags s).pc = s.pc ∧ (updateFlags s).sp = s.sp ∧ (updateFlags s).a = s.a ∧
    (updateFlags s).x = s.x ∧ (updateFlags s).y = s.y ∧
    (updateFlags s).flags = flagsFromAccumulator s.a s.flags ∧ (updateFlags s).mem = s.mem ∧
    (updateFlags s).budget = s.budget ∧ (updateFlags s).phase = s.phase ∧
    (updateFlags s).fault = s.fault ∧ (updateFlags s).host = s.host ∧
    (updateFlags s).freeCount = s.freeCount :=
  ⟨rfl, rfl, rfl, rfl, rfl, rfl, rfl, rfl, rfl, rfl, rfl, rfl⟩

@[simp] theorem flagsFromAccumulator_fields (a : Byte) (f : Flags) :
    (flagsFromAccumulator a f).c = f.c ∧ (flagsFromAccumulator a f).z = decide (a = 0x00#8) ∧
    (flagsFromAccumulator a f).i = f.i ∧ (flagsFromAccumulator a f).d = f.d ∧
    (flagsFromAccumulator a f).b = f.b ∧ (flagsFromAccumulator a f).v = f.v ∧
    (flagsFromAccumulator a f).n = a.getLsbD 7 :=
  ⟨rfl, rfl, rfl, rfl, rfl, rfl, rfl⟩

@[simp] theorem loadAccumulator_fields (v : Byte) (s : State) :
    (loadAccumulator v s).pc = s.pc ∧ (loadAccumulator v s).sp = s.sp ∧ (loadAccumulator v s).a = v ∧
    (loadAccumulator v s).x = s.x ∧ (loadAccumulator v s).y = s.y ∧
    (loadAccumulator v s).flags = flagsFromAccumulator v s.flags ∧ (loadAccumulator v s).mem = s.mem ∧
    (loadAccumulator v s).budget = s.budget ∧ (loadAccumulator v s).phase = s.phase ∧
    (loadAccumulator v s).fault = s.fault ∧ (loadAccumulator v s).host = s.host ∧
    (loadAccumulator v s).freeCount = s.freeCount :=
  ⟨rfl, rfl, rfl, rfl, rfl, rfl, rfl, rfl, rfl, rfl, rfl, rfl⟩

@[simp] theorem endRun_fields (s : State) :
    (endRun s).pc = s.pc ∧ (endRun s).sp = s.sp ∧ (endRun s).a = s.a ∧ (endRun s).x = s.x ∧
    (endRun s).y = s.y ∧ (endRun s).flags = s.flags ∧ (endRun s).mem = s.mem ∧
    (endRun s).budget = s.budget ∧ (endRun s).phase = .idle ∧ (endRun s).fault = s.fault ∧
    (endRun s).host = s.host ∧ (endRun s).freeCount = s.freeCount :=
  ⟨rfl, rfl, rfl, rfl, rfl, rfl, rfl, rfl, rfl, rfl, rfl, rfl⟩

@[simp] theorem openRun_fields (s : State) :
    (openRun s).pc = s.pc ∧ (openRun s).sp = s.sp ∧ (openRun s).a = s.a ∧ (openRun s).x = s.x ∧
    (openRun s).y = s.y ∧ (openRun s).flags = s.flags ∧ (openRun s).mem = s.mem ∧
    (openRun s).budget = (if 0 < s.budget then s.budget else 1) ∧ (openRun s).phase = .running ∧
    (openRun s).fault = none ∧ (openRun s).host = s.host ∧ (openRun s).freeCount = s.freeCount :=
  ⟨rfl, rfl, rfl, rfl, rfl, rfl, rfl, rfl, rfl, rfl, rfl, rfl⟩

/-- The register port writes registers and flags only. -/
@[simp] theorem regWrite_fields (r : HostReg) (v : Word) (s : State) :
    (regWrite r v s).mem = s.mem ∧ (regWrite r v s).budget = s.budget ∧
    (regWrite r v s).phase = s.phase ∧ (regWrite r v s).fault = s.fault ∧
    (regWrite r v s).host = s.host ∧ (regWrite r v s).freeCount = s.freeCount := by
  cases r <;> exact ⟨rfl, rfl, rfl, rfl, rfl, rfl⟩

/-- Counting a free value changes the count and nothing else. -/
@[simp] theorem countFree_fields (s : State) :
    (countFree s).pc = s.pc ∧ (countFree s).sp = s.sp ∧ (countFree s).a = s.a ∧ (countFree s).x = s.x ∧
    (countFree s).y = s.y ∧ (countFree s).flags = s.flags ∧ (countFree s).mem = s.mem ∧
    (countFree s).budget = s.budget ∧ (countFree s).phase = s.phase ∧ (countFree s).fault = s.fault ∧
    (countFree s).host = s.host ∧
    (countFree s).freeCount = (if neverReset s then s.freeCount + 1 else s.freeCount) := by
  unfold countFree; split <;> simp

end Sys2Proof.Machine
end

