-- ==== Sys2Proof/Laws/Ops.lean ====
section
/-! SUPPORT. For each shared operation, once, everything it can do. -/

namespace Sys2Proof.Machine

/-- A word write either is out of range, and then only at 0xFFFF, or stores two bytes and charges 2. -/
theorem memWriteWordLE_cases (addr w : Word) (s : State) :
    (addr = 0xFFFF#16 ∧ memWriteWordLE addr w s = .error (.memoryRange 0x10000#17)) ∨
    (addr ≠ 0xFFFF#16 ∧ memWriteWordLE addr w s =
      .ok { s with mem := (s.mem.write addr.toNat (lo8 w)).write (addr + 1).toNat (hi8 w)
                   budget := s.budget - 2 }) := by
  by_cases h : addr = 0xFFFF#16
  · subst h; exact .inl ⟨rfl, rfl⟩
  · have : ¬ addr.toNat + 1 > 0xFFFF := fun hgt => h (by
      have := addr.isLt
      apply BitVec.eq_of_toNat_eq
      show addr.toNat = 65535
      omega)
    exact .inr ⟨h, by unfold memWriteWordLE; rw [if_neg this]; rfl⟩

/-- Below 0xFFFF the byte after `addr` is at `addr + 1` exactly. -/
theorem toNat_succ {addr : Word} (h : addr ≠ 0xFFFF#16) : (addr + 1).toNat = addr.toNat + 1 := by
  have h1 := addr.isLt
  have : addr.toNat ≠ 65535 := fun he => h (BitVec.eq_of_toNat_eq he)
  rw [BitVec.toNat_add]
  show (addr.toNat + 1) % 65536 = _
  omega

/-- A call after its operand fetch: it faults at SP = 0xFFFF, or stores the return address and goes to the target. -/
theorem callThrough_cases (target : Word) (s : State) :
    (s.sp = 0xFFFF#16 ∧ callThrough target s = raiseFault (.memoryRange 0x10000#17) s) ∨
    (s.sp ≠ 0xFFFF#16 ∧ callThrough target s =
      { s with mem := (s.mem.write s.sp.toNat (lo8 (s.pc - 1))).write (s.sp + 1).toNat (hi8 (s.pc - 1))
               sp := s.sp + 1
               pc := target
               budget := s.budget - 2 - 1 - 1 }) := by
  rcases memWriteWordLE_cases s.sp (s.pc - 1) s with ⟨h, e⟩ | ⟨h, e⟩
  · exact .inl ⟨h, by simp only [callThrough, e]⟩
  · exact .inr ⟨h, by simp only [callThrough, e]; rfl⟩

/-- Passing bytes in two goes is passing them at once. -/
theorem passBytes_passBytes (m n : Nat) (s : State) : passBytes m (passBytes n s) = passBytes (n + m) s := by
  simp only [passBytes, charge, State.mk.injEq, and_true, true_and]
  exact ⟨by rw [BitVec.add_assoc, BitVec.ofNat_add], by push_cast; omega⟩

theorem fetchByte_eq (s : State) :
    fetchByte s = (s.mem.read s.pc.toNat, { s with pc := s.pc + 1, budget := s.budget - 1 }) := rfl

theorem readByteAt_eq (addr : Word) (s : State) :
    readByteAt addr s = (s.mem.read addr.toNat, { s with budget := s.budget - 1 }) := rfl

theorem loadAccumulator_eq (v : Byte) (s : State) :
    loadAccumulator v s = { s with a := v, flags := flagsFromAccumulator v s.flags } := rfl

theorem loadZeroPage_eq (zp : Byte) (s : State) :
    loadZeroPage zp s = loadAccumulator (s.mem.read (zeroPageAddr zp).toNat) (charge 1 s) := rfl

theorem loadZeroPageX_eq (zp : Byte) (s : State) :
    loadZeroPageX zp s =
      loadAccumulator (s.mem.read (zeroPageXAddr zp s.x).toNat) (charge 1 (charge 1 s)) := rfl

/-- Reset gives the values of State.reset and keeps the budget and the model's own two fields. -/
theorem resetCore_eq (s : State) :
    resetCore s = { State.reset with budget := s.budget, host := s.host, freeCount := s.freeCount } := rfl

/-- Every instruction answers a next state. -/
theorem exec_next (i : Instr) (s : State) : ∃ t, exec i s = .next t := by
  cases i <;> exact ⟨_, rfl⟩

theorem step_running {s : State} (h : s.phase = .running) :
    step s = if budgetLeft s then exec (fetchInstr s) s else .next (endRun s) := by
  simp [step, h]

theorem step_not_running {s : State} (h : s.phase ≠ .running) : step s = hostTurn s := by
  unfold step; cases hp : s.phase <;> simp_all

/-- An Idle state with no fault recorded has been reset. -/
theorem neverReset_eq_false {s : State} (hp : s.phase = .idle) (hf : s.fault = none) : neverReset s = false := by
  simp [neverReset, hp, hf]

/-- Once the CORE has been reset a read gives out no free value. -/
theorem countFree_eq_self {s : State} (h : neverReset s = false) : countFree s = s := by
  simp [countFree, h]

theorem hostMove_reset {s : State} (h : s.phase ≠ .running) : hostMove .reset s = .next (resetCore s) := by
  unfold hostMove hostReset
  cases hp : s.phase <;> simp_all

/-- A host move that answers a next state is one of these. -/
theorem hostMove_cases {m : HostMove} {s t : State} (h : hostMove m s = .next t) :
    (m = .reset ∧ s.phase ≠ .running ∧ t = resetCore s) ∨
    (∃ addr v, m = .writeMem addr v ∧ (s.phase = .unreset ∨ s.phase = .idle) ∧ t = memWrite addr v s) ∨
    (∃ r v, m = .writeReg r v ∧ (s.phase = .unreset ∨ s.phase = .idle) ∧ t = regWrite r v s) ∨
    (((∃ addr, m = .readMem addr) ∨ ∃ r, m = .readReg r) ∧ (s.phase = .idle ∨ s.phase = .faulted) ∧
      t = countFree s) ∨
    (((∃ addr, m = .readMem addr) ∨ (∃ r, m = .readReg r) ∨ ∃ b0, m = .start b0) ∧ s.phase = .unreset ∧
      t = raiseFault .notReset s) ∨
    (∃ b0 : Nat, m = .start b0 ∧ s.phase = .idle ∧ t = { s with budget := b0, phase := .running }) := by
  cases m <;> simp only [hostMove, hostReset, hostWrite, hostRead, hostStart] at h <;>
    split at h <;> simp_all

/-- With no host move left nothing happens; in phase Faulted there is no next state at all. -/
theorem hostSilent_next {s t : State} (h : hostSilent s = .next t) : s.phase ≠ .faulted ∧ t = s := by
  unfold hostSilent at h
  split at h
  · rename_i hp
    unfold coreFaulted at h
    split at h <;> cases h
  all_goals cases h; simp_all

/-- What a step that answers a next state can be. -/
theorem step_cases {s t : State} (h : step s = .next t) :
    (s.phase = .running ∧ 0 < s.budget ∧ exec (fetchInstr s) s = .next t) ∨
    (s.phase = .running ∧ s.budget ≤ 0 ∧ t = endRun s) ∨
    (s.phase ≠ .running ∧ s.phase ≠ .faulted ∧ s.host = [] ∧ t = s) ∨
    (s.phase ≠ .running ∧ ∃ m rest, s.host = m :: rest ∧ hostMove m { s with host := rest } = .next t) := by
  by_cases hp : s.phase = .running
  · rw [step_running hp] at h
    split at h
    · rename_i hb
      exact .inl ⟨hp, by simpa [budgetLeft] using hb, h⟩
    · cases h
      exact .inr (.inl ⟨hp, by simpa [budgetLeft] using ‹¬ budgetLeft s = true›, rfl⟩)
  · rw [step_not_running hp] at h
    unfold hostTurn at h
    split at h
    · obtain ⟨hf, rfl⟩ := hostSilent_next h
      exact .inr (.inr (.inl ⟨hp, hf, ‹_›, rfl⟩))
    · exact .inr (.inr (.inr ⟨hp, _, _, ‹_›, h⟩))

end Sys2Proof.Machine
end

