-- ==== Sys2Proof/Laws/PerInstr.lean ====
section
/-! SUPPORT. Statements about every instruction, one lemma per constructor. -/

namespace Sys2Proof.Laws.EncodeLength

/-- The bytes of a well-formed instruction are an opcode and just as many operand bytes as that opcode takes; their
number is the instruction's length, one to three (30_encoding.md R81, R90). -/
def Statement (i : Instr) : Prop :=
  i.wf = true → ∃ op rest, encode i = op :: rest ∧ rest.length = operandBytes (dispatch op) ∧
    i.length = rest.length + 1 ∧ i.length ≤ 3

theorem ldaImm (imm : Byte) : Statement (.ldaImm imm) := fun _ => ⟨_, _, rfl, rfl, rfl, by simp [Instr.length]⟩

theorem ldaZp (zp : Byte) : Statement (.ldaZp zp) := fun _ => ⟨_, _, rfl, rfl, rfl, by simp [Instr.length]⟩

theorem ldaZpx (zp : Byte) : Statement (.ldaZpx zp) := fun _ => ⟨_, _, rfl, rfl, rfl, by simp [Instr.length]⟩

theorem jsrAbs (target : Word) : Statement (.jsrAbs target) := fun _ => ⟨_, _, rfl, rfl, rfl, by simp [Instr.length]⟩

theorem unhandled (opcode : Byte) : Statement (.unhandled opcode) := fun h =>
  ⟨_, _, rfl, by rw [(dispatch_unhandled_iff opcode).2 h]; rfl, rfl, by simp [Instr.length]⟩

end Sys2Proof.Laws.EncodeLength
end

