-- ==== Sys2Proof/Laws/Run.lean ====
section
/-! SUPPORT. Running the machine step by step. -/

namespace Sys2Proof.Machine

@[simp] theorem runSteps_zero (s : State) : runSteps 0 s = .next s := rfl

/-- A step that answers a next state goes on from there. -/
theorem runSteps_next {s t : State} (k : Nat) (h : step s = .next t) :
    runSteps (k + 1) s = runSteps k t := by
  simp only [runSteps, h]

/-- One round of the host's own run function, for any machine. -/
theorem core_run_succ (M : Host.Core) (k : Nat) (s : M.State) (o : Host.Outcome M.State M.Fault M.Refusal)
    (h : M.step s = o) :
    M.run (k + 1) s = match o with
      | .next t => M.run k t
      | .fault f => .fault f
      | .refused r => .refused r := by
  cases o <;> simp only [Host.Core.run, h]

/-- `runSteps` is the run of the host's interface. -/
theorem runSteps_eq_core_run (k : Nat) (s : State) : runSteps k s = Host.Core.run Sys2Proof.core k s := by
  induction k generalizing s with
  | zero => rfl
  | succ k ih =>
    cases h : step s with
    | next t => rw [runSteps_next k h, ih]; exact (core_run_succ Sys2Proof.core k s _ h).symm
    | fault f => simp only [runSteps, h]; exact (core_run_succ Sys2Proof.core k s _ h).symm
    | refused r => simp only [runSteps, h]; exact (core_run_succ Sys2Proof.core k s _ h).symm

end Sys2Proof.Machine
end

