-- ==== Sys2Proof/Tests/Slice0.lean ====
section
/-! SUPPORT. The model's own tests: expected results are the spec's (95_test_vectors.md) or worked by hand from its
rules; and for each statement with hypotheses a witness that meets them. -/

namespace Sys2Proof.Tests

open Sys2Proof Sys2Proof.Machine

/-! ### Helpers -/

/-- The next state of an outcome, if it is one. -/
def nextOf : Host.Outcome State Fault Refusal → Option State
  | .next t => some t
  | .fault _ => none
  | .refused _ => none

/-- Reset, then bytes from 0xFFFC on, then a run with `b0` cycles in progress. -/
def run (b0 : Int) (bytes : List Byte) : State :=
  { placeBytes bytes 0xFFFC#16 State.reset with phase := .running, budget := b0 }

/-- One byte more in memory. -/
def poke (addr : Word) (v : Byte) (s : State) : State := memWrite addr v s

/-- All seven flags set. -/
def allFlags : Flags := ⟨true, true, true, true, true, true, true⟩

/-- A machine stopped by MemoryRangeFault. -/
def faulted : State := raiseFault (.memoryRange 0x10000#17) State.reset

/-- A machine that was run before its first reset. -/
def faultedNotReset : State := raiseFault .notReset State.constructed

/-! ### Well-formedness: each check refuses an ill-formed term -/

theorem test_wf_refuses_decoded_opcodes :
    (Instr.unhandled 0xA9#8).wf = false ∧ (Instr.unhandled 0xA5#8).wf = false ∧
    (Instr.unhandled 0xB5#8).wf = false ∧ (Instr.unhandled 0x20#8).wf = false := by decide

theorem test_wf_accepts :
    (Instr.unhandled 0xEA#8).wf = true ∧ (Instr.ldaImm 0xFF#8).wf = true ∧ (Instr.ldaZp 0x00#8).wf = true ∧
    (Instr.ldaZpx 0xFF#8).wf = true ∧ (Instr.jsrAbs 0xFFFF#16).wf = true := by decide

/-! ### Decoding: words written out bit by bit from 30_encoding.md R81, R87 -/

theorem test_decode_ldaImm :
    decodeTableWord 16 (0b10000100 * 256 + 0b10101001) = some (.ldaImm 0x84#8) := by decide

theorem test_decode_ldaZp :
    decodeTableWord 16 (0b00010000 * 256 + 0b10100101) = some (.ldaZp 0x10#8) := by decide

theorem test_decode_ldaZpx :
    decodeTableWord 16 (0b11110000 * 256 + 0b10110101) = some (.ldaZpx 0xF0#8) := by decide

theorem test_decode_jsrAbs :
    decodeTableWord 24 (0b00010010 * 65536 + 0b00110100 * 256 + 0b00100000) = some (.jsrAbs 0x1234#16) := by decide

theorem test_decode_unhandled :
    decodeTableWord 8 0b11101010 = some (.unhandled 0xEA#8) ∧ decodeTableWord 8 0x60 = some (.unhandled 0x60#8) ∧
    decodeTableWord 8 0x00 = some (.unhandled 0x00#8) := by decide

/-- The decoder rejects by name a list that is too short. -/
theorem test_decode_rejects :
    (match decode [] with | .error e => some e | .ok _ => none) = some .noOpcode ∧
    (match decode [0xA9#8] with | .error e => some e | .ok _ => none) = some (.operandMissing 0xA9#8) ∧
    (match decode [0x20#8, 0x00#8] with | .error e => some e | .ok _ => none) = some (.operandMissing 0x20#8) := by
  decide

/-- An operand the table word gives no bits is zero. -/
theorem test_table_word_is_cut : decodeTableWord 8 0xFFA9 = some (.ldaImm 0x00#8) := by decide

theorem test_encode_jsrAbs : encode (.jsrAbs 0x1234#16) = [0x20#8, 0x34#8, 0x12#8] := by decide

/-! ### The first instruction after reset, for each row of the table -/

theorem test_first_instruction_ldaImm :
    step (State.reset.withFetchWord 16 0x84A9) = exec (.ldaImm 0x84#8) (State.reset.withFetchWord 16 0x84A9) := rfl

theorem test_first_instruction_ldaZp :
    step (State.reset.withFetchWord 16 0x10A5) = exec (.ldaZp 0x10#8) (State.reset.withFetchWord 16 0x10A5) := rfl

theorem test_first_instruction_ldaZpx :
    step (State.reset.withFetchWord 16 0x10B5) = exec (.ldaZpx 0x10#8) (State.reset.withFetchWord 16 0x10B5) := rfl

theorem test_first_instruction_jsrAbs :
    step (State.reset.withFetchWord 24 0x424220) = exec (.jsrAbs 0x4242#16) (State.reset.withFetchWord 24 0x424220) :=
  rfl

theorem test_first_instruction_unhandled :
    step (State.reset.withFetchWord 8 0x00) = exec (.unhandled 0x00#8) (State.reset.withFetchWord 8 0x00) := rfl

/-! ### The instructions, on the spec's vectors (95_test_vectors.md) -/

/-- V-IMM6 and V-LOOP3: C, I, D, B, V stay set; starting with budget 1 it completes at -1. -/
theorem test_ldaImm_zero :
    (nextOf (step { run 1 [0xA9#8, 0x00#8] with flags := allFlags })).map
      (fun t => (t.a, t.flags, t.pc, t.budget)) =
      some (0x00#8, ⟨true, true, true, true, true, true, false⟩, 0xFFFE#16, -1) := by decide

/-- V-IMM8: the opcode at 0xFFFF, the operand at 0x0000. -/
theorem test_ldaImm_wraps :
    (nextOf (step { poke 0x0000#16 0x42#8 (poke 0xFFFF#16 0xA9#8 (run 2 [])) with pc := 0xFFFF#16 })).map
      (fun t => (t.a, t.flags.z, t.flags.n, t.pc, t.budget)) = some (0x42#8, false, false, 0x0001#16, 0) := by decide

/-- V-ZP2: the last zero-page address. -/
theorem test_ldaZp_top :
    (nextOf (step { run 3 [0xA5#8, 0xFF#8] with a := 0x33#8 })).map
      (fun t => (t.a, t.flags.z, t.flags.n, t.pc, t.budget)) = some (0x00#8, true, false, 0xFFFE#16, 0) := by decide

/-- V-ZP3: 0x0110 is not read. -/
theorem test_ldaZp_not_page_one :
    (nextOf (step (poke 0x0110#16 0x55#8 (poke 0x0010#16 0x37#8 (run 3 [0xA5#8, 0x10#8]))))).map
      (fun t => (t.a, t.flags.z, t.flags.n)) = some (0x37#8, false, false) := by decide

/-- V-ZPX2: the sum wraps inside the zero page and leaves C. -/
theorem test_ldaZpx_wraps :
    (nextOf (step { poke 0x010F#16 0x01#8 (poke 0x000F#16 0xC0#8 (run 4 [0xB5#8, 0x10#8])) with x := 0xFF#8 })).map
      (fun t => (t.a, t.flags.z, t.flags.n, t.flags.c, t.x, t.budget)) =
      some (0xC0#8, false, true, false, 0xFF#8, 0) := by decide

/-- V-ZPX6: budget 3 overshoots to -1. -/
theorem test_ldaZpx_overshoots :
    (nextOf (step { poke 0x0015#16 0x99#8 (run 3 [0xB5#8, 0x10#8]) with x := 0x05#8 })).map
      (fun t => (t.a, t.budget, t.pc)) = some (0x99#8, -1, 0xFFFE#16) := by decide

/-- V-JSR4: the stack write lands on the JSR's own operand bytes, which have been fetched. -/
theorem test_jsrAbs_on_itself :
    (nextOf (step { run 7 [0x20#8, 0x34#8, 0x12#8] with sp := 0xFFFE#16 })).map
      (fun t => (t.pc, t.sp, t.mem.read 0xFFFE, t.mem.read 0xFFFF, t.budget)) =
      some (0x1234#16, 0xFFFF#16, 0xFE#8, 0xFF#8, 0) := by decide

/-- V-JSR5: MemoryRangeFault(0x10000), nothing written. -/
theorem test_jsrAbs_faults :
    (nextOf (step { run 7 [0x20#8, 0x00#8, 0x10#8] with sp := 0xFFFF#16 })).map
      (fun t => (t.phase, t.fault, t.pc, t.sp, t.mem.read 0xFFFF, t.budget)) =
      some (.faulted, some (.memoryRange 0x10000#17), 0xFFFF#16, 0xFFFF#16, 0x00#8, 4) := by decide

/-- V-UNH2: PC wraps. -/
theorem test_unhandled_wraps :
    (nextOf (step { poke 0xFFFF#16 0xFF#8 (run 1 []) with pc := 0xFFFF#16 })).map (fun t => (t.pc, t.budget)) =
      some (0x0000#16, 0) := by decide

/-- L1.8: the event of 0xEA at 0xFFFC. -/
theorem test_unhandled_event : diagOut (run 1 [0xEA#8]) = some ⟨0xEA#8, 0xFFFC#16⟩ := by decide

/-! ### Loop, reset and host -/

/-- 40_execute.md R106: at budget 0 the phase returns to Idle and 0 is handed out. -/
theorem test_run_ends :
    (nextOf (step (run 0 [0xEA#8]))).map (fun t => (t.phase, t.pc)) = some (.idle, 0xFFFC#16) ∧
    budgetOut (run 0 []) = some 0 := by decide

/-- V-RST1: reset from a fault, the budget unchanged. -/
theorem test_reset_from_fault :
    (nextOf (step { poke 0x2000#16 0xAA#8 faulted with
        pc := 0xFFFF#16, sp := 0xFFFF#16, a := 0x55#8, x := 0x66#8, y := 0x77#8, flags := allFlags, budget := -3
        host := [.reset] })) =
      some { State.reset with budget := -3 } := by decide

/-- V-LOOP7: a run before the first reset raises NotReset, code 0x82. -/
theorem test_start_unreset :
    (nextOf (step { State.constructed with host := [.start 5] })).map (fun t => (t.phase, faultOut t)) =
      some (.faulted, some (0x82#8, none)) := by decide

/-- V-LOOP8, P5: in phase Faulted `execute` is refused. -/
theorem test_start_faulted :
    step { faulted with host := [.start 7] } = .refused (.hostMoveNotAllowed .faulted) := rfl

/-- P5: the machine has stopped with its fault; the port shows code 0x81 and the address 0x10000. -/
theorem test_faulted_port :
    step faulted = .fault (.memoryRange 0x10000#17) ∧ faultOut faulted = some (0x81#8, some 0x10000#17) :=
  ⟨rfl, rfl⟩

/-- L1.5's preset: the host writes X, and reads it back zero-extended. -/
theorem test_host_writes_x :
    (nextOf (step { State.reset with host := [.writeReg .x 0xAB05#16] })).map
      (fun t => (t.x, hostRdata (.readReg .x) t)) = some (0x05#8, some 0x0005#16) := by decide

/-- A flag takes bit 0 of the data. -/
theorem test_host_writes_flag :
    (nextOf (step { State.reset with host := [.writeReg .flagV 0x0003#16] })).map (fun t => t.flags.v) =
      some true := by decide

/-- 40_execute.md R112: the bus sequence of JSR from reset. -/
theorem test_bus_jsrAbs :
    busCycles (.jsrAbs 0x4242#16) (run 7 [0x20#8, 0x42#8, 0x42#8]) =
      [.read 0xFFFC#16 0x20#8, .read 0xFFFD#16 0x42#8, .read 0xFFFE#16 0x42#8, .write 0x0100#16 0xFE#8,
        .write 0x0101#16 0xFF#8, .internal, .internal] := by decide

/-- 20_memory.md R70: what the port shows in each kind of cycle. -/
theorem test_bus_signals :
    (memValid (.read 0x0010#16 0x37#8), memWe (.read 0x0010#16 0x37#8), memRdata (.read 0x0010#16 0x37#8)) =
      (true, some false, some 0x37#8) ∧
    (memValid (.write 0x0100#16 0xFE#8), memWe (.write 0x0100#16 0xFE#8), memWdata (.write 0x0100#16 0xFE#8)) =
      (true, some true, some 0xFE#8) ∧
    (memValid .internal, memClear .internal, memClear .clear) = (false, false, true) := by decide

/-- 20_memory.md R56, R70: the clear of reset leaves every byte 0x00. -/
theorem test_bus_reset : resetCycles.foldl busApply [(0x2000, 0xAA#8)] = [] := by decide

/-- Writing the byte an unlisted address reads as removes the entry. -/
theorem test_memory_canonical :
    Memory.write (Memory.write [] 5 0x12#8) 5 0x00#8 = [] ∧
    Memory.write (Memory.write [] 5 0x12#8) 3 0x34#8 = [(3, 0x34#8), (5, 0x12#8)] ∧
    Memory.wf [(5, 0x12#8), (3, 0x34#8)] = false ∧ Memory.wf [(3, 0x00#8)] = false ∧
    Memory.wf [(65536, 0x01#8)] = false := by decide

/-! ### Witnesses: each statement's hypotheses can be met, at the boundaries of its clauses -/

theorem witness_DecodeOfEncodeIsTheInstruction :
    (Instr.unhandled 0xFF#8).wf = true ∧ (Instr.jsrAbs 0xFFFF#16).wf = true := by decide

theorem witness_EncodeOfDecodeIsTheBytes :
    decode [0x20#8, 0x34#8, 0x12#8, 0xEA#8] = .ok (.jsrAbs 0x1234#16, [0xEA#8]) := rfl

theorem witness_EveryOpcodeByteDecodes :
    (0xA8#8 ≠ 0xA9#8 ∧ 0xA8#8 ≠ 0xA5#8 ∧ 0xA8#8 ≠ 0xB5#8 ∧ 0xA8#8 ≠ 0x20#8) ∧ dispatch 0xFF#8 = .unhandled ∧
    dispatch 0x00#8 = .unhandled := by decide

theorem witness_LengthIsAFunctionOfTheOpcode :
    decode [0xB5#8, 0x10#8] = .ok (.ldaZpx 0x10#8, []) ∧ decode [0x20#8, 0x00#8, 0x02#8] = .ok (.jsrAbs 0x0200#16, []) ∧
    decode [0x60#8] = .ok (.unhandled 0x60#8, []) := ⟨rfl, rfl, rfl⟩

theorem witness_ResetLeavesTheSpecifiedValues :
    State.constructed.phase ≠ .running ∧ State.reset.phase ≠ .running ∧ faulted.phase ≠ .running := by decide

theorem witness_ResetMayBeRepeated : (run 1 []).phase = .running ∧ State.reset.phase ≠ .running := by decide

theorem witness_ResetSatisfiesTheInvariant : ∃ t, hostMove .reset faulted = .next t := ⟨_, rfl⟩

/-- A faulting JSR, from a state that satisfies the invariant: the record, the phase and the budget all move. -/
theorem witness_StepKeepsTheInvariant :
    State.Inv { run 1 [0x20#8, 0x00#8, 0x10#8] with sp := 0xFFFF#16 } ∧
    ∃ t, step { run 1 [0x20#8, 0x00#8, 0x10#8] with sp := 0xFFFF#16 } = .next t := by
  refine ⟨⟨by decide, ?_, ?_, ?_⟩, ⟨_, rfl⟩⟩
  · show (none : Option Fault).isSome = true ↔ Phase.running = .faulted
    simp
  · show Phase.running = .running → (-6 : Int) ≤ 1
    simp
  · intro addr h; cases h

theorem witness_StepRunsTheDecodedInstruction :
    (run 1 [0xA5#8, 0x10#8]).phase = .running ∧ 0 < (run 1 [0xA5#8, 0x10#8]).budget ∧
    decode (fetchWindow (run 1 [0xA5#8, 0x10#8])) = .ok (.ldaZp 0x10#8, [0x00#8]) := ⟨rfl, by decide, rfl⟩

theorem witness_RunEndsWhenTheBudgetIsSpent :
    (run 0 []).phase = .running ∧ (run 0 []).budget ≤ 0 ∧ (run (-6) []).budget ≤ 0 := by decide

theorem witness_StepIsOneRoundOfTheLoop : (run 1 []).phase = .running ∧ 0 < (run 1 []).budget := by decide

theorem witness_ExecuteIsIteratedStep : State.reset.phase = .idle := rfl

theorem witness_EveryRunEnds :
    State.Inv { State.reset with host := [.start 5] } ∧
    ({ State.reset with host := [.start 5] } : State).phase = .idle := by
  refine ⟨⟨rfl, ?_, ?_, ?_⟩, rfl⟩
  · show (none : Option Fault).isSome = true ↔ Phase.idle = .faulted
    simp
  · intro h; cases h
  · intro addr h; cases h

/-- The two ends at their bounds: with b0 = 0 the run ends normally after b0 + 2 steps; with b0 = 1 and a JSR at SP =
0xFFFF it is Faulted after b0 + 1. -/
theorem witness_EveryRunEnds_bounds :
    (nextOf (runSteps 2 { State.reset with host := [.start 0] })).map (fun t => t.phase) = some .idle ∧
    (nextOf (runSteps 2 { memWrite 0xFFFC#16 0x20#8 State.reset with sp := 0xFFFF#16, host := [.start 1] })).map
      (fun t => t.phase) = some .faulted := by decide

theorem witness_ZeroBudgetRunChangesNothing :
    ({ State.reset with host := [.start 0] } : State).phase = .idle ∧
    ({ State.reset with host := [.start 0] } : State).host = .start 0 :: [] := by decide

theorem witness_ExecuteOneIsASingleStep :
    State.reset.phase = .idle ∧ decode (fetchWindow State.reset) = .ok (.unhandled 0x00#8, [0x00#8, 0x00#8]) :=
  ⟨rfl, rfl⟩

theorem witness_EveryStepOfARunIsTaken : (run (-6) []).phase = .running ∧ (run 1 []).phase = .running := by decide

/-- A safe step and an unsafe one. -/
theorem witness_OnlyOverflowingCallIsUnsafe :
    (run 1 [0x20#8]).phase = .running ∧ (run 1 [0x20#8]).fault = none ∧
    (nextOf (step { run 1 [0x20#8] with sp := 0xFFFE#16 })).map (fun t => t.fault) = some none ∧
    (nextOf (step { run 1 [0x20#8] with sp := 0xFFFF#16 })).map (fun t => t.fault.isSome) = some true := by decide

/-- One step for each of the five transitions. -/
theorem witness_PhaseChangesOnlyAsListed :
    (nextOf (step { faulted with host := [.reset] })).map (fun t => t.phase) = some .idle ∧
    (nextOf (step { State.reset with host := [.start 0] })).map (fun t => t.phase) = some .running ∧
    (nextOf (step (run 0 []))).map (fun t => t.phase) = some .idle ∧
    (nextOf (step { run 1 [0x20#8] with sp := 0xFFFF#16 })).map (fun t => t.phase) = some .faulted ∧
    (nextOf (step { State.constructed with host := [.readReg .a] })).map (fun t => t.phase) = some .faulted := by
  decide

theorem witness_LdaImmediateFromItsBytes :
    (run 1 [0xA9#8, 0x80#8]).phase = .running ∧ 0 < (run 1 [0xA9#8, 0x80#8]).budget ∧
    (run 1 [0xA9#8, 0x80#8]).mem.read (run 1 [0xA9#8, 0x80#8]).pc.toNat = 0xA9#8 := by decide

theorem witness_LdaZeroPageFromItsBytes :
    (run 1 [0xA5#8, 0xFF#8]).phase = .running ∧ 0 < (run 1 [0xA5#8, 0xFF#8]).budget ∧
    (run 1 [0xA5#8, 0xFF#8]).mem.read (run 1 [0xA5#8, 0xFF#8]).pc.toNat = 0xA5#8 := by decide

theorem witness_LdaZeroPageXFromItsBytes :
    (run 1 [0xB5#8, 0xFF#8]).phase = .running ∧ 0 < (run 1 [0xB5#8, 0xFF#8]).budget ∧
    (run 1 [0xB5#8, 0xFF#8]).mem.read (run 1 [0xB5#8, 0xFF#8]).pc.toNat = 0xB5#8 := by decide

/-- Both clauses: SP = 0xFFFE completes, SP = 0xFFFF faults. -/
theorem witness_JsrFromItsBytes :
    (run 1 [0x20#8]).phase = .running ∧ 0 < (run 1 [0x20#8]).budget ∧
    (run 1 [0x20#8]).mem.read (run 1 [0x20#8]).pc.toNat = 0x20#8 ∧
    ({ run 1 [0x20#8] with sp := 0xFFFE#16 } : State).sp ≠ 0xFFFF#16 ∧
    ({ run 1 [0x20#8] with sp := 0xFFFF#16 } : State).sp = 0xFFFF#16 := by decide

theorem witness_UnhandledOpcodeFromItsByte :
    (run 1 [0x60#8]).phase = .running ∧ 0 < (run 1 [0x60#8]).budget ∧
    (run 1 [0x60#8]).mem.read (run 1 [0x60#8]).pc.toNat = 0x60#8 := by decide

theorem witness_JsrCompletes :
    State.reset.mem.wf = true ∧ ({ State.reset with sp := 0xFFFE#16 } : State).sp ≠ 0xFFFF#16 := by decide

theorem witness_JsrTrapsAtTheTopOfMemory : ({ State.reset with sp := 0xFFFF#16 } : State).sp = 0xFFFF#16 := rfl

theorem witness_LdaFrame :
    (∃ t, exec (.ldaImm 0x00#8) State.reset = .next t) ∧ (∃ t, exec (.ldaZp 0x00#8) State.reset = .next t) ∧
    ∃ t, exec (.ldaZpx 0x00#8) State.reset = .next t := ⟨⟨_, rfl⟩, ⟨_, rfl⟩, ⟨_, rfl⟩⟩

theorem witness_JsrFrame :
    (∃ t, exec (.jsrAbs 0x4242#16) { State.reset with sp := 0xFFFE#16 } = .next t) ∧
    ∃ t, exec (.jsrAbs 0x4242#16) { State.reset with sp := 0xFFFF#16 } = .next t := ⟨⟨_, rfl⟩, ⟨_, rfl⟩⟩

theorem witness_UnhandledOpcodeFrame : ∃ t, exec (.unhandled 0xEA#8) State.reset = .next t := ⟨_, rfl⟩

/-- An instruction that does change A. -/
theorem witness_WhatNoInstructionWrites :
    ∃ t, exec (.ldaImm 0x84#8) State.reset = .next t ∧ t.a ≠ State.reset.a := ⟨_, rfl, by decide⟩

/-- Both clauses: an LDA, and an opcode that keeps the flags. -/
theorem witness_NoInstructionReadsFlagsOrY :
    (run 1 [0xA9#8]).phase = .running ∧ (∃ t, step (run 1 [0xA9#8]) = .next t) ∧
    (0 < (run 1 [0xA9#8]).budget ∧ memRead (run 1 [0xA9#8]).pc (run 1 [0xA9#8]) = 0xA9#8) ∧
    (run 1 [0x20#8]).phase = .running ∧ (∃ t, step (run 1 [0x20#8]) = .next t) ∧
    memRead (run 1 [0x20#8]).pc (run 1 [0x20#8]) = 0x20#8 :=
  ⟨rfl, ⟨_, rfl⟩, by decide, rfl, ⟨_, rfl⟩, by decide⟩

theorem witness_PcAfterEachInstruction :
    (∃ t, exec (.ldaImm 0x00#8) { State.reset with pc := 0xFFFF#16 } = .next t) ∧
    (∃ t, exec (.ldaZp 0x00#8) State.reset = .next t) ∧ (∃ t, exec (.ldaZpx 0x00#8) State.reset = .next t) ∧
    (∃ t, exec (.jsrAbs 0x0000#16) { State.reset with sp := 0xFFFF#16 } = .next t) ∧
    ∃ t, exec (.unhandled 0x00#8) { State.reset with pc := 0xFFFF#16 } = .next t :=
  ⟨⟨_, rfl⟩, ⟨_, rfl⟩, ⟨_, rfl⟩, ⟨_, rfl⟩, ⟨_, rfl⟩⟩

theorem witness_CycleCosts :
    (nextOf (exec (.ldaImm 0x00#8) State.reset)).map (fun t => t.budget) = some (-2) ∧
    (nextOf (exec (.ldaZp 0x00#8) State.reset)).map (fun t => t.budget) = some (-3) ∧
    (nextOf (exec (.ldaZpx 0x00#8) State.reset)).map (fun t => t.budget) = some (-4) ∧
    (nextOf (exec (.jsrAbs 0x0000#16) State.reset)).map (fun t => t.budget) = some (-7) ∧
    (nextOf (exec (.unhandled 0x00#8) State.reset)).map (fun t => t.budget) = some (-1) := by decide

/-- JSR from reset does change the byte at SP. -/
theorem witness_OnlyJsrStores :
    ∃ t, exec (.jsrAbs 0x4242#16) State.reset = .next t ∧ t.mem.read 0x0100 ≠ State.reset.mem.read 0x0100 :=
  ⟨_, rfl, by decide⟩

theorem witness_SpNeverWrapsThroughJsr :
    ∃ t, exec (.jsrAbs 0x4242#16) { State.reset with sp := 0xFFFE#16 } = .next t := ⟨_, rfl⟩

theorem witness_FaultOnlyFromOverflowingCall :
    State.reset.fault = none ∧ ∃ t, exec (.jsrAbs 0x4242#16) { State.reset with sp := 0xFFFF#16 } = .next t :=
  ⟨rfl, _, rfl⟩

theorem witness_SuccessiveCallsOverlap :
    State.reset.mem.wf = true ∧ ({ State.reset with sp := 0xFFFD#16 } : State).sp.toNat + 2 ≤ 0xFFFF ∧
    ∃ t u, exec (.jsrAbs 0x4242#16) { State.reset with sp := 0xFFFD#16 } = .next t ∧
      exec (.jsrAbs 0x0200#16) t = .next u := ⟨rfl, by decide, _, _, rfl, rfl⟩

/-- Targets for the three cases: SP, SP + 1, elsewhere. -/
theorem witness_FetchSeesTheStackWrite :
    State.reset.mem.wf = true ∧ State.reset.sp ≠ 0xFFFF#16 ∧
    (∃ t, exec (.jsrAbs 0x0100#16) State.reset = .next t) ∧ (∃ t, exec (.jsrAbs 0x0101#16) State.reset = .next t) ∧
    ∃ t, exec (.jsrAbs 0x00FF#16) State.reset = .next t := ⟨rfl, by decide, ⟨_, rfl⟩, ⟨_, rfl⟩, ⟨_, rfl⟩⟩

theorem witness_WordWrite :
    State.reset.mem.wf = true ∧ 0xFFFE#16 ≠ 0xFFFF#16 ∧ Memory.wf [(0xFFFE, 0x01#8)] = true := by decide

theorem witness_BusSequenceAgrees :
    (∃ t, exec (.jsrAbs 0x4242#16) State.reset = .next t) ∧
    ∃ t, exec (.jsrAbs 0x4242#16) { State.reset with sp := 0xFFFF#16 } = .next t := ⟨⟨_, rfl⟩, ⟨_, rfl⟩⟩

/-- A step of the fault's reader, which is no reset. -/
theorem witness_FaultIsSticky :
    faulted.phase = .faulted ∧ faulted.host = [] ∧
    ∃ t, step { faulted with host := [.readMem 0xFFFF#16] } = .next t ∧
      ({ faulted with host := [.readMem 0xFFFF#16] } : State).host.head? ≠ some .reset := ⟨rfl, rfl, _, rfl, by decide⟩

theorem witness_NotResetBeforeReset : State.constructed.phase = .unreset := rfl

theorem witness_HostDoesNotActDuringARun :
    (run 1 []).phase = .running ∧ ∃ t, step (run 1 []) = .next t := ⟨rfl, _, rfl⟩

theorem witness_HostRegisterWriteIsReadBack :
    State.reset.phase = .idle ∧ State.reset.fault = none ∧ HostReg.flagZ ≠ HostReg.a := by decide

theorem witness_HostMemoryWriteIsReadBack :
    State.reset.phase = .idle ∧ State.reset.fault = none ∧ State.reset.mem.wf = true ∧ 0xFFFF#16 ≠ 0x0000#16 := by
  decide

theorem witness_IdleKeepsEverything : State.reset.phase = .idle ∧ State.reset.host = [] := by decide

theorem witness_StartLoadsTheBudget :
    ({ State.reset with host := [.start 7] } : State).phase = .idle ∧
    ({ State.reset with host := [.start 7] } : State).host = .start 7 :: [] := by decide

/-- A read after NotReset gives out a free value and counts it. -/
theorem test_free_value_counted :
    (nextOf (step { faultedNotReset with host := [.readReg .a] })).map (fun t => t.freeCount) = some 1 ∧
    hostRdata (.readReg .a) faultedNotReset = some (((Config.noValue 0).setWidth 8).setWidth 16) := ⟨by decide, rfl⟩

end Sys2Proof.Tests
end

section
/-! ### What one instruction does

For each instruction the state it leaves, in one record update, and the inversion lemma `exec_cases` that every
whole-machine rule below is derived from. -/

namespace Sys2Proof.Machine

/-- The byte an LDA form loads into A (41_load.md R130-R132); none for an instruction that loads nothing. -/
def ldaByte (i : Instr) (s : State) : Option Byte :=
  match i with
  | .ldaImm imm => some imm
  | .ldaZp zp => some (memRead (zeroPageAddr zp) s)
  | .ldaZpx zp => some (memRead (zeroPageXAddr zp s.x) s)
  | .jsrAbs _ => none
  | .unhandled _ => none

theorem exists_lda_form_of_ldaByte {i : Instr} {s : State} {v : Byte} (h : ldaByte i s = some v) :
    ∃ b, i = .ldaImm b ∨ i = .ldaZp b ∨ i = .ldaZpx b := by
  cases i with
  | ldaImm b => exact ⟨b, .inl rfl⟩
  | ldaZp b => exact ⟨b, .inr (.inl rfl)⟩
  | ldaZpx b => exact ⟨b, .inr (.inr rfl)⟩
  | jsrAbs _ => cases h
  | unhandled _ => cases h

/-- The three forms of LDA differ in the byte they load and in their cost only. -/
theorem exec_of_ldaByte {i : Instr} {s : State} {v : Byte} (h : ldaByte i s = some v) :
    exec i s = .next { s with
      a := v
      flags := flagsFromAccumulator v s.flags
      pc := s.pc + 2
      budget := s.budget - cycleCost i } := by
  cases i with
  | ldaImm imm => cases h; rfl
  | ldaZp zp =>
    cases h
    simp only [exec, execLdaZp, loadZeroPage_eq, loadAccumulator_eq, charge, passBytes, cycleCost, Int.sub_sub]
    rfl
  | ldaZpx zp =>
    cases h
    simp only [exec, execLdaZpx, loadZeroPageX_eq, loadAccumulator_eq, charge, passBytes, cycleCost, Int.sub_sub]
    rfl
  | jsrAbs _ => cases h
  | unhandled _ => cases h

/-- A call that completes. -/
theorem exec_jsrAbs_of_sp_ne {s : State} (target : Word) (h : s.sp ≠ 0xFFFF#16) :
    exec (.jsrAbs target) s = .next { s with
      pc := target
      sp := s.sp + 1
      mem := (s.mem.write s.sp.toNat (lo8 (s.pc + 2))).write (s.sp + 1).toNat (hi8 (s.pc + 2))
      budget := s.budget - 7 } := by
  have hret : (passBytes 3 s).pc - 1 = s.pc + 2 := by
    show s.pc + 3#16 - 1 = s.pc + 2
    bv_omega
  have hcost : (passBytes 3 s).budget - 2 - 1 - 1 = s.budget - 7 := by
    show s.budget - (3 : Nat) - 2 - 1 - 1 = s.budget - 7
    omega
  obtain ⟨h', -⟩ | ⟨-, e⟩ := callThrough_cases target (passBytes 3 s)
  · exact absurd h' h
  · rw [hret, hcost] at e
    exact congrArg Host.Outcome.next e

/-- A call at SP = 0xFFFF: its three bytes are fetched, then the fault is taken. -/
theorem exec_jsrAbs_of_sp_eq {s : State} (target : Word) (h : s.sp = 0xFFFF#16) :
    exec (.jsrAbs target) s = .next { s with
      pc := s.pc + 3
      budget := s.budget - 3
      phase := .faulted
      fault := some (.memoryRange 0x10000#17) } := by
  obtain ⟨-, e⟩ | ⟨h', -⟩ := callThrough_cases target (passBytes 3 s)
  · exact congrArg Host.Outcome.next e
  · exact absurd h h'

theorem exec_unhandled (op : Byte) (s : State) :
    exec (.unhandled op) s = .next { s with pc := s.pc + 1, budget := s.budget - 1 } := rfl

/-- Everything an instruction can do. -/
theorem exec_cases {i : Instr} {s t : State} (h : exec i s = .next t) :
    (∃ v, ldaByte i s = some v ∧ t = { s with
      a := v
      flags := flagsFromAccumulator v s.flags
      pc := s.pc + 2
      budget := s.budget - cycleCost i }) ∨
    (∃ target, i = .jsrAbs target ∧ s.sp ≠ 0xFFFF#16 ∧ t = { s with
      pc := target
      sp := s.sp + 1
      mem := (s.mem.write s.sp.toNat (lo8 (s.pc + 2))).write (s.sp + 1).toNat (hi8 (s.pc + 2))
      budget := s.budget - 7 }) ∨
    (∃ target, i = .jsrAbs target ∧ s.sp = 0xFFFF#16 ∧ t = { s with
      pc := s.pc + 3
      budget := s.budget - 3
      phase := .faulted
      fault := some (.memoryRange 0x10000#17) }) ∨
    (∃ op, i = .unhandled op ∧ t = { s with pc := s.pc + 1, budget := s.budget - 1 }) := by
  cases hv : ldaByte i s with
  | some v =>
    rw [exec_of_ldaByte hv] at h
    cases h
    exact .inl ⟨v, rfl, rfl⟩
  | none =>
    cases i with
    | ldaImm _ => cases hv
    | ldaZp _ => cases hv
    | ldaZpx _ => cases hv
    | jsrAbs target =>
      by_cases hsp : s.sp = 0xFFFF#16
      · rw [exec_jsrAbs_of_sp_eq target hsp] at h
        cases h
        exact .inr (.inr (.inl ⟨target, rfl, hsp, rfl⟩))
      · rw [exec_jsrAbs_of_sp_ne target hsp] at h
        cases h
        exact .inr (.inl ⟨target, rfl, hsp, rfl⟩)
    | unhandled op =>
      cases h
      exact .inr (.inr (.inr ⟨op, rfl, rfl⟩))

theorem cycleCost_le (i : Instr) : cycleCost i ≤ 7 := by
  cases i <;> simp [cycleCost]

/-- An instruction keeps phase and record, unless it takes the range fault. -/
theorem exec_phase {i : Instr} {s t : State} (h : exec i s = .next t) :
    (t.phase = s.phase ∧ t.fault = s.fault) ∨
    (t.phase = .faulted ∧ t.fault = some (.memoryRange 0x10000#17)) := by
  obtain ⟨_, _, rfl⟩ | ⟨_, _, _, rfl⟩ | ⟨_, _, _, rfl⟩ | ⟨_, _, rfl⟩ := exec_cases h
  · exact .inl ⟨rfl, rfl⟩
  · exact .inl ⟨rfl, rfl⟩
  · exact .inr ⟨rfl, rfl⟩
  · exact .inl ⟨rfl, rfl⟩

/-- An instruction charges at most 7 cycles (40_execute.md R111). -/
theorem exec_budget_ge {i : Instr} {s t : State} (h : exec i s = .next t) : s.budget - 7 ≤ t.budget := by
  obtain ⟨_, _, rfl⟩ | ⟨_, _, _, rfl⟩ | ⟨_, _, _, rfl⟩ | ⟨_, _, rfl⟩ := exec_cases h
  · have := cycleCost_le i
    show s.budget - 7 ≤ s.budget - cycleCost i
    omega
  · exact le_rfl
  · show s.budget - 7 ≤ s.budget - 3
    omega
  · show s.budget - 7 ≤ s.budget - 1
    omega

/-- An instruction keeps the canonical form of memory. -/
theorem exec_wf {i : Instr} {s t : State} (h : exec i s = .next t) (hs : s.mem.wf = true) : t.mem.wf = true := by
  obtain ⟨_, _, rfl⟩ | ⟨_, _, _, rfl⟩ | ⟨_, _, _, rfl⟩ | ⟨_, _, rfl⟩ := exec_cases h
  · exact hs
  · exact Memory.write_wf _ _ (Memory.write_wf _ _ hs)
  · exact hs
  · exact hs

end Sys2Proof.Machine
end

section
/-! ### The invariant -/

namespace Sys2Proof.Machine

theorem State.fault_eq_none_of_record {s : State} (h : s.RecordMatchesPhase) (hp : s.phase ≠ .faulted) :
    s.fault = none := by
  simpa using mt h.1 hp

/-- Outside phase Faulted the invariant asks for no record, and nothing about one. -/
theorem State.Inv.of_not_faulted {t : State} (hmem : t.mem.wf = true) (hphase : t.phase ≠ .faulted)
    (hfault : t.fault = none) (hbudget : t.BudgetInRange) : t.Inv where
  memory := hmem
  record := by simp [State.RecordMatchesPhase, hfault, hphase]
  budget := hbudget
  catalogue := by simp [State.RecordInCatalogue, hfault]

/-- The invariant speaks of memory, phase, record and budget only. -/
theorem State.Inv.of_same_phase {s t : State} (hs : s.Inv) (hmem : t.mem.wf = true) (hphase : t.phase = s.phase)
    (hfault : t.fault = s.fault) (hbudget : t.BudgetInRange) : t.Inv where
  memory := hmem
  record := by simpa [State.RecordMatchesPhase, hphase, hfault] using hs.record
  budget := hbudget
  catalogue := by simpa [State.RecordInCatalogue, hfault] using hs.catalogue

/-- In phase Faulted with a record of the catalogue. -/
theorem State.Inv.of_faulted {t : State} {f : Fault} (hmem : t.mem.wf = true) (hphase : t.phase = .faulted)
    (hfault : t.fault = some f) (hf : ∀ addr, f = .memoryRange addr → addr = 0x10000#17) : t.Inv where
  memory := hmem
  record := by simp [State.RecordMatchesPhase, hphase, hfault]
  budget := by simp [State.BudgetInRange, hphase]
  catalogue := by simpa [State.RecordInCatalogue, hfault] using hf

/-- Reset gives the invariant whatever the state before it. -/
theorem resetCore_inv (s : State) : (resetCore s).Inv :=
  .of_not_faulted zeroed_wf (by simp) rfl (by simp [State.BudgetInRange])

/-- A whole instruction keeps the invariant: it starts with at least one cycle left and charges at most 7. -/
theorem exec_inv {i : Instr} {s t : State} (hs : s.Inv) (hb : 0 < s.budget) (h : exec i s = .next t) : t.Inv := by
  have hmem := exec_wf h hs.memory
  obtain ⟨hphase, hfault⟩ | ⟨hphase, hfault⟩ := exec_phase h
  · refine hs.of_same_phase hmem hphase hfault fun _ => ?_
    have := exec_budget_ge h
    omega
  · exact .of_faulted hmem hphase hfault (by simp)

theorem endRun_inv {s : State} (hs : s.Inv) (hp : s.phase = .running) : (endRun s).Inv :=
  .of_not_faulted hs.memory (by simp) (s.fault_eq_none_of_record hs.record (by simp [hp]))
    (by simp [State.BudgetInRange])

/-- Every move of the host keeps the invariant. -/
theorem hostMove_inv {m : HostMove} {s t : State} (hs : s.Inv) (h : hostMove m s = .next t) : t.Inv := by
  obtain ⟨_, _, rfl⟩ | ⟨addr, v, _, _, rfl⟩ | ⟨_, _, _, _, rfl⟩ | ⟨_, _, rfl⟩ | ⟨_, _, rfl⟩ | ⟨b0, _, hp, rfl⟩ :=
    hostMove_cases h
  · exact resetCore_inv s
  · exact hs.of_same_phase (memWrite_wf addr v hs.memory) rfl rfl hs.budget
  · exact hs.of_same_phase (by simpa using hs.memory) (by simp) (by simp)
      (by simpa [State.BudgetInRange] using hs.budget)
  · exact hs.of_same_phase (by simpa using hs.memory) (by simp) (by simp)
      (by simpa [State.BudgetInRange] using hs.budget)
  · exact .of_faulted hs.memory rfl rfl (by simp)
  · exact .of_not_faulted hs.memory (by simp) (s.fault_eq_none_of_record hs.record (by simp [hp]))
      (fun _ => show (-6 : Int) ≤ b0 by omega)

/-- The host's list of moves is no part of the invariant. -/
theorem State.Inv.with_host {s : State} (hs : s.Inv) (moves : List HostMove) : ({ s with host := moves } : State).Inv :=
  ⟨hs.memory, hs.record, hs.budget, hs.catalogue⟩

/-- Settles O9: each kind of step keeps the invariant. -/
theorem stepKeepsTheInvariant : Obligations.StepKeepsTheInvariant := by
  intro s t hs h
  obtain ⟨_, hb, he⟩ | ⟨hp, _, rfl⟩ | ⟨_, _, _, rfl⟩ | ⟨_, m, rest, _, hm⟩ := step_cases h
  · exact exec_inv hs hb he
  · exact endRun_inv hs hp
  · exact hs
  · exact hostMove_inv (hs.with_host rest) hm

theorem eq_resetCore_of_hostMove_reset {s t : State} (h : hostMove .reset s = .next t) : t = resetCore s := by
  obtain ⟨-, ht⟩ : s.phase ≠ .running ∧ t = resetCore s := by simpa using hostMove_cases h
  exact ht

/-- The constant State.reset is what a reset of it leaves. -/
theorem resetCore_reset : resetCore State.reset = State.reset := rfl

/-- Settles O8: a reset reaches `resetCore`, of which State.reset is an image too. -/
theorem resetSatisfiesTheInvariant : Obligations.ResetSatisfiesTheInvariant := by
  refine ⟨resetCore_reset ▸ resetCore_inv State.reset, fun s t h => ?_⟩
  rw [eq_resetCore_of_hostMove_reset h]
  exact resetCore_inv s

end Sys2Proof.Machine
end

section
/-! ### Reset and the host -/

namespace Sys2Proof.Machine

theorem resetCore_resetValues (s : State) : (resetCore s).ResetValues where
  pc := rfl
  sp := rfl
  a := rfl
  x := rfl
  y := rfl
  flags := ⟨rfl, rfl, rfl, rfl, rfl, rfl, rfl⟩
  memory _ := rfl
  phase := rfl
  fault := rfl

/-- Settles O6: outside Running a reset is taken and reaches `resetCore`. -/
theorem resetLeavesTheSpecifiedValues : Obligations.ResetLeavesTheSpecifiedValues :=
  ⟨fun s hp => ⟨resetCore s, hostMove_reset hp, resetCore_resetValues s, rfl⟩,
    resetCore_reset ▸ resetCore_resetValues State.reset⟩

/-- Reset overwrites whatever byte was written before it. -/
@[simp] theorem resetCore_memWrite (addr : Word) (v : Byte) (s : State) :
    resetCore (memWrite addr v s) = resetCore s := rfl

/-- Reset overwrites whatever register was written before it. -/
@[simp] theorem resetCore_regWrite (r : HostReg) (v : Word) (s : State) :
    resetCore (regWrite r v s) = resetCore s := by
  cases r <;> rfl

theorem hostWrite_of_unreset {s : State} (write : State → State) (h : s.phase = .unreset) :
    hostWrite write s = .next (write s) := by
  simp [hostWrite, h]

theorem hostRead_of_unreset {s : State} (h : s.phase = .unreset) : hostRead s = .next (raiseFault .notReset s) := by
  simp [hostRead, h]

theorem hostStart_of_unreset {s : State} (b0 : Nat) (h : s.phase = .unreset) :
    hostStart b0 s = .next (raiseFault .notReset s) := by
  simp [hostStart, h]

/-- In phase Unreset a write that stays in it and that reset overwrites has no lasting effect. -/
theorem hostWrite_then_reset {s : State} {write : State → State} (h : s.phase = .unreset)
    (hphase : (write s).phase = s.phase) (hreset : resetCore (write s) = resetCore s) :
    ∃ t, hostWrite write s = .next t ∧ hostMove .reset t = hostMove .reset s :=
  ⟨write s, hostWrite_of_unreset write h, by
    rw [hostMove_reset (by simp [hphase, h]), hostMove_reset (by simp [h]), hreset]⟩

/-- Settles O48: starts and reads raise NotReset, and the reset after a write overwrites what was written. -/
theorem notResetBeforeReset : Obligations.NotResetBeforeReset := fun _ h =>
  ⟨fun b0 => hostStart_of_unreset b0 h, fun _ => hostRead_of_unreset h, fun _ => hostRead_of_unreset h,
    fun addr v => hostWrite_then_reset h rfl (resetCore_memWrite addr v _),
    fun r v => hostWrite_then_reset h (by simp) (resetCore_regWrite r v _), rfl⟩

/-- A move of the host keeps the phase, or is a reset, the start of a run, or one that raises NotReset. -/
theorem hostMove_phase {m : HostMove} {s t : State} (h : hostMove m s = .next t) :
    t.phase = s.phase ∨
    (m = .reset ∧ t.phase = .idle) ∨
    (s.phase = .idle ∧ (∃ b0, m = .start b0) ∧ t.phase = .running) ∨
    (s.phase = .unreset ∧ t.phase = .faulted ∧ t.fault = some .notReset) := by
  obtain ⟨hm, _, rfl⟩ | ⟨_, _, _, _, rfl⟩ | ⟨_, _, _, _, rfl⟩ | ⟨_, _, rfl⟩ | ⟨_, hp, rfl⟩ | ⟨b0, hm, hp, rfl⟩ :=
    hostMove_cases h
  · exact .inr (.inl ⟨hm, rfl⟩)
  · exact .inl rfl
  · exact .inl (by simp)
  · exact .inl (by simp)
  · exact .inr (.inr (.inr ⟨hp, rfl, rfl⟩))
  · exact .inr (.inr (.inl ⟨hp, ⟨b0, hm⟩, rfl⟩))

/-- Settles O19: an instruction changes the phase only by its fault, the end of a run does, and of the host's moves
those of `hostMove_phase`. -/
theorem phaseChangesOnlyAsListed : Obligations.PhaseChangesOnlyAsListed := by
  intro s t h hne
  obtain ⟨hp, hb, he⟩ | ⟨hp, hb, rfl⟩ | ⟨_, _, _, rfl⟩ | ⟨hp, m, rest, hhost, hm⟩ := step_cases h
  · obtain ⟨hsame, _⟩ | ⟨hphase, hfault⟩ := exec_phase he
    · exact absurd hsame hne
    · exact .inr (.inr (.inr (.inl ⟨hp, hb, hphase, by simp [hfault]⟩)))
  · exact .inr (.inr (.inl ⟨hp, hb, rfl⟩))
  · exact absurd rfl hne
  · rw [hhost]
    obtain hsame | ⟨rfl, ht⟩ | ⟨hidle, ⟨b0, rfl⟩, ht⟩ | hnot := hostMove_phase hm
    · exact absurd hsame hne
    · exact .inl ⟨hp, rfl, ht⟩
    · exact .inr (.inl ⟨hidle, ⟨b0, rfl⟩, ht⟩)
    · exact .inr (.inr (.inr (.inr hnot)))

end Sys2Proof.Machine
end

section
/-! ### Registers and flags -/

namespace Sys2Proof.Machine

/-- Settles O43: the definition of the helper is the rule. -/
theorem flagHelper : Obligations.FlagHelper := fun _ => rfl

/-- The flags an instruction that starts in `s` leaves, if it found the flags `f`. -/
def flagsAfter (i : Instr) (s : State) (f : Flags) : Flags :=
  match ldaByte i s with
  | some v => flagsFromAccumulator v f
  | none => f

theorem flagsAfter_of_some {i : Instr} {s : State} {v : Byte} (f : Flags) (h : ldaByte i s = some v) :
    flagsAfter i s f = flagsFromAccumulator v f := by
  simp [flagsAfter, h]

theorem flagsAfter_of_none {i : Instr} {s : State} (f : Flags) (h : ldaByte i s = none) :
    flagsAfter i s f = f := by
  simp [flagsAfter, h]

/-- C, I, D, B and V are never written (10_state.md R33). -/
@[simp] theorem flagsAfter_fields (i : Instr) (s : State) (f : Flags) :
    (flagsAfter i s f).c = f.c ∧ (flagsAfter i s f).i = f.i ∧ (flagsAfter i s f).d = f.d ∧
    (flagsAfter i s f).b = f.b ∧ (flagsAfter i s f).v = f.v := by
  cases h : ldaByte i s with
  | some v => simp [flagsAfter_of_some f h]
  | none => simp [flagsAfter_of_none f h]

/-- Every instruction computes its flags as `flagsAfter` says, and, whatever flags and Y it finds, does the same to
everything else and leaves Y alone (10_state.md R28, R31). -/
theorem exec_with_flags_y {i : Instr} {s t : State} (h : exec i s = .next t) (f : Flags) (y : Byte) :
    exec i { s with flags := f, y := y } = .next { t with flags := flagsAfter i s f, y := y } := by
  obtain ⟨v, hv, rfl⟩ | ⟨target, rfl, hsp, rfl⟩ | ⟨target, rfl, hsp, rfl⟩ | ⟨op, rfl, rfl⟩ := exec_cases h
  · have hv' : ldaByte i { s with flags := f, y := y } = some v := by rw [← hv]; cases i <;> rfl
    rw [exec_of_ldaByte hv', flagsAfter_of_some f hv]
  · exact exec_jsrAbs_of_sp_ne target hsp
  · exact exec_jsrAbs_of_sp_eq target hsp
  · rfl

/-- X and Y stay, the flags are those of `flagsAfter`, and A is loaded by LDA only. -/
theorem exec_registers {i : Instr} {s t : State} (h : exec i s = .next t) :
    t.x = s.x ∧ t.y = s.y ∧ t.flags = flagsAfter i s s.flags ∧ (ldaByte i s = none → t.a = s.a) := by
  obtain ⟨v, hv, rfl⟩ | ⟨_, rfl, _, rfl⟩ | ⟨_, rfl, _, rfl⟩ | ⟨_, rfl, rfl⟩ := exec_cases h
  · exact ⟨rfl, rfl, (flagsAfter_of_some _ hv).symm, by simp [hv]⟩
  · exact ⟨rfl, rfl, rfl, fun _ => rfl⟩
  · exact ⟨rfl, rfl, rfl, fun _ => rfl⟩
  · exact ⟨rfl, rfl, rfl, fun _ => rfl⟩

/-- Settles O32: `exec_registers`; without a loaded byte A and all flags are as before. -/
theorem whatNoInstructionWrites : Obligations.WhatNoInstructionWrites := by
  intro i s t h
  obtain ⟨hx, hy, hflags, ha⟩ := exec_registers h
  refine ⟨hx, hy, by simp [hflags], by simp [hflags], by simp [hflags], by simp [hflags], by simp [hflags],
    fun hchanged => ?_⟩
  cases hv : ldaByte i s with
  | some v => exact exists_lda_form_of_ldaByte hv
  | none =>
    rw [flagsAfter_of_none _ hv] at hflags
    simp [ha hv, hflags] at hchanged

/-- The instruction at PC is an LDA exactly for the three opcodes of LDA (30_encoding.md R87). -/
theorem ldaByte_fetchInstr_isSome (s : State) :
    (ldaByte (fetchInstr s) s).isSome = true ↔
      memRead s.pc s = 0xA9#8 ∨ memRead s.pc s = 0xA5#8 ∨ memRead s.pc s = 0xB5#8 := by
  rw [fetchInstr]
  generalize memRead s.pc s = op
  obtain rfl | rfl | rfl | rfl | hop := opcode_cases op
  · simp [instrOf, ldaByte]
  · simp [instrOf, ldaByte]
  · simp [instrOf, ldaByte]
  · simp [instrOf, ldaByte]
  · have : ¬ (op = 0xA9#8 ∨ op = 0xA5#8 ∨ op = 0xB5#8) := by
      rintro (rfl | rfl | rfl) <;> simp at hop
    simp [instrOf, hop, ldaByte, this]

/-- Settles O33: the instruction at PC is the same one, `exec_with_flags_y` says what it does, and the end of a run
leaves flags and Y alone. -/
theorem noInstructionReadsFlagsOrY : Obligations.NoInstructionReadsFlagsOrY := by
  intro s t f y hp h
  have hstep : step { s with flags := f, y := y } =
      if budgetLeft s then exec (fetchInstr s) { s with flags := f, y := y }
      else .next (endRun { s with flags := f, y := y }) := step_running hp
  obtain ⟨_, hb, he⟩ | ⟨_, hb, rfl⟩ | ⟨hnp, _⟩ | ⟨hnp, _⟩ := step_cases h
  · obtain ⟨_, _, hflags, _⟩ := exec_registers he
    rw [if_pos (by simpa [budgetLeft] using hb), exec_with_flags_y he f y] at hstep
    refine ⟨_, hstep, rfl, rfl, by simp, by simp, by simp, by simp, by simp, ?_⟩
    rw [hflags]
    cases hv : ldaByte (fetchInstr s) s with
    | some v =>
      have hop := (ldaByte_fetchInstr_isSome s).1 (by simp [hv])
      rw [if_pos ⟨hb, hop⟩]
      simp [flagsAfter_of_some _ hv]
    | none =>
      have hop := mt (ldaByte_fetchInstr_isSome s).2 (by simp [hv])
      rw [if_neg (fun hc => hop hc.2)]
      exact ⟨flagsAfter_of_none f hv, flagsAfter_of_none s.flags hv⟩
  · rw [if_neg (by simpa [budgetLeft] using hb)] at hstep
    refine ⟨_, hstep, rfl, rfl, rfl, rfl, rfl, rfl, rfl, ?_⟩
    rw [if_neg (by omega)]
    exact ⟨rfl, rfl⟩
  · exact absurd hp hnp
  · exact absurd hp hnp

/-- Settles O37: SP moves only in a call that completes, and then SP was below 0xFFFF. -/
theorem spNeverWrapsThroughJsr : Obligations.SpNeverWrapsThroughJsr := by
  intro i s t h
  obtain ⟨_, _, rfl⟩ | ⟨target, hi, hsp, rfl⟩ | ⟨_, _, _, rfl⟩ | ⟨_, _, rfl⟩ := exec_cases h
  · exact .inl rfl
  · exact .inr ⟨⟨target, hi⟩, toNat_succ hsp⟩
  · exact .inl rfl
  · exact .inl rfl

/-- Settles O34: PC in each case of `exec_cases`, read as a number. -/
theorem pcAfterEachInstruction : Obligations.PcAfterEachInstruction := by
  intro i s t h
  obtain ⟨_, hv, rfl⟩ | ⟨_, rfl, hsp, rfl⟩ | ⟨_, rfl, hsp, rfl⟩ | ⟨_, rfl, rfl⟩ := exec_cases h
  · obtain ⟨_, rfl | rfl | rfl⟩ := exists_lda_form_of_ldaByte hv <;> exact BitVec.toNat_add _ _
  · exact (if_neg hsp).symm
  · exact (BitVec.toNat_add _ _).trans (if_pos hsp).symm
  · exact BitVec.toNat_add _ _

end Sys2Proof.Machine
end

section
/-! ### Memory, and the host's access to it -/

namespace Sys2Proof.Machine

/-- The two bytes of a word write read back, low byte first (20_memory.md R54). -/
theorem Memory.read_writeWord {m : Memory} (hm : m.wf = true) {addr : Word} (h : addr ≠ 0xFFFF#16) (w : Word) :
    ((m.write addr.toNat (lo8 w)).write (addr + 1).toNat (hi8 w)).read addr.toNat = w.setWidth 8 ∧
    ((m.write addr.toNat (lo8 w)).write (addr + 1).toNat (hi8 w)).read (addr.toNat + 1) =
      (w >>> 8).setWidth 8 := by
  rw [toNat_succ h, ← lo8_eq_setWidth, ← hi8_eq_setWidth]
  exact Memory.read_write_pair hm addr _ _

/-- A word write leaves every byte alone but that at its address and the next one (20_memory.md R54). -/
theorem Memory.read_writeWord_other {m : Memory} {addr w : Word} {a : Nat} (h : addr ≠ 0xFFFF#16)
    (ha : a ≠ addr.toNat) (ha' : a ≠ addr.toNat + 1) :
    ((m.write addr.toNat (lo8 w)).write (addr + 1).toNat (hi8 w)).read a = m.read a := by
  rw [toNat_succ h]
  exact Memory.read_write_pair_other _ _ ha ha'

/-- Settles O42: the two outcomes of `memWriteWordLE_cases`, the second read back byte by byte. -/
theorem wordWrite : Obligations.WordWrite := by
  intro s addr w
  obtain ⟨haddr, e⟩ | ⟨haddr, e⟩ := memWriteWordLE_cases addr w s
  · exact ⟨fun _ => e, fun hne => absurd haddr hne⟩
  · exact ⟨fun heq => absurd heq haddr, fun _ => ⟨_, e, fun a => Memory.read_writeWord_other haddr, rfl,
      fun hm => Memory.read_writeWord hm haddr w⟩⟩

/-- Settles O36: in `exec_cases` memory is another one only after a call that completes, whose word write leaves every
byte alone but those at SP and SP + 1. -/
theorem onlyJsrStores : Obligations.OnlyJsrStores := by
  intro i s t addr h hchanged
  obtain ⟨_, _, rfl⟩ | ⟨target, hi, hsp, rfl⟩ | ⟨_, _, _, rfl⟩ | ⟨_, _, rfl⟩ := exec_cases h
  · exact absurd rfl hchanged
  · refine ⟨target, hi, hsp, ?_⟩
    by_contra hother
    obtain ⟨hlo, hhi⟩ := not_or.1 hother
    exact hchanged (Memory.read_writeWord_other hsp hlo hhi)
  · exact absurd rfl hchanged
  · exact absurd rfl hchanged

/-- Settles O40: the opcode fetch reads, at the target, the memory that the call's word write has left. -/
theorem fetchSeesTheStackWrite : Obligations.FetchSeesTheStackWrite := by
  intro s t target hm hsp h
  rw [exec_jsrAbs_of_sp_ne target hsp] at h
  cases h
  show ((s.mem.write s.sp.toNat (lo8 (s.pc + 2))).write (s.sp + 1).toNat (hi8 (s.pc + 2))).read target.toNat = _
  obtain ⟨hlo, hhi⟩ := Memory.read_writeWord hm hsp (s.pc + 2)
  by_cases hfirst : target = s.sp
  · rw [if_pos hfirst, hfirst, hlo]
  by_cases hsecond : target = s.sp + 1
  · rw [if_neg hfirst, if_pos hsecond, hsecond]
    exact toNat_succ hsp ▸ hhi
  · rw [if_neg hfirst, if_neg hsecond]
    exact Memory.read_writeWord_other hsp (mt BitVec.eq_of_toNat_eq hfirst)
      (toNat_succ hsp ▸ mt BitVec.eq_of_toNat_eq hsecond)

/-- No instruction reads the host's list of moves or changes it (20_memory.md R65). -/
theorem exec_with_host {i : Instr} {s t : State} (h : exec i s = .next t) (moves : List HostMove) :
    t.host = s.host ∧ exec i { s with host := moves } = .next { t with host := moves } := by
  obtain ⟨v, hv, rfl⟩ | ⟨target, rfl, hsp, rfl⟩ | ⟨target, rfl, hsp, rfl⟩ | ⟨op, rfl, rfl⟩ := exec_cases h
  · have hv' : ldaByte i { s with host := moves } = some v := by rw [← hv]; cases i <;> rfl
    exact ⟨rfl, exec_of_ldaByte hv'⟩
  · exact ⟨rfl, exec_jsrAbs_of_sp_ne target hsp⟩
  · exact ⟨rfl, exec_jsrAbs_of_sp_eq target hsp⟩
  · exact ⟨rfl, rfl⟩

/-- During a run no move of the host is allowed (60_exceptions.md R176; for reset log entry 13). -/
theorem hostMove_of_running {s : State} (m : HostMove) (h : s.phase = .running) :
    hostMove m s = .refused (.hostMoveNotAllowed .running) := by
  cases m with
  | reset => simp [hostMove, hostReset, h]
  | writeMem _ _ => simp [hostMove, hostWrite, h]
  | readMem _ => simp [hostMove, hostRead, h]
  | writeReg _ _ => simp [hostMove, hostWrite, h]
  | readReg _ => simp [hostMove, hostRead, h]
  | start _ => simp [hostMove, hostStart, h]

/-- Settles O49: a step of a run is an instruction, which `exec_with_host` speaks of, or the end of the run, which only
sets the phase. -/
theorem hostDoesNotActDuringARun : Obligations.HostDoesNotActDuringARun := by
  intro s hp
  refine ⟨fun m => hostMove_of_running m hp, fun t moves h => ?_⟩
  have hstep : step { s with host := moves } =
      if budgetLeft s then exec (fetchInstr s) { s with host := moves }
      else .next (endRun { s with host := moves }) := step_running hp
  obtain ⟨_, hb, he⟩ | ⟨_, hb, rfl⟩ | ⟨hnp, _⟩ | ⟨hnp, _⟩ := step_cases h
  · rw [if_pos (by simpa [budgetLeft] using hb)] at hstep
    rw [hstep]
    exact exec_with_host he moves
  · rw [if_neg (by simpa [budgetLeft] using hb)] at hstep
    exact ⟨rfl, hstep⟩
  · exact absurd hp hnp
  · exact absurd hp hnp

/-- In phase Idle a write of the host takes effect (60_exceptions.md R176). -/
theorem hostWrite_of_idle {s : State} (write : State → State) (h : s.phase = .idle) :
    hostWrite write s = .next (write s) := by
  simp [hostWrite, h]

/-- In phase Idle a read of the host leaves the whole state as it is (60_exceptions.md R176). -/
theorem hostRead_of_idle {s : State} (hp : s.phase = .idle) (hf : s.fault = none) : hostRead s = .next s := by
  simp [hostRead, hp, countFree_eq_self (neverReset_eq_false hp hf)]

/-- What a read of memory returns in phase Idle: the byte that stands there, zero-extended (60_exceptions.md R176). -/
theorem hostRdata_readMem_of_idle {s : State} (addr : Word) (hp : s.phase = .idle) (hf : s.fault = none) :
    hostRdata (.readMem addr) s = some (zext16 (memRead addr s)) := by
  simp [hostRdata, hp, neverReset_eq_false hp hf]

/-- The byte written is read back (20_memory.md R53). -/
theorem memRead_memWrite_same {s : State} (addr : Word) (v : Byte) (hm : s.mem.wf = true) :
    memRead addr (memWrite addr v s) = v :=
  Memory.read_write_same hm

/-- A byte write leaves every other address alone (20_memory.md R53). -/
theorem memRead_memWrite_other {addr a : Word} (v : Byte) (s : State) (h : a ≠ addr) :
    memRead a (memWrite addr v s) = memRead a s :=
  Memory.read_write_other (mt BitVec.eq_of_toNat_eq h)

/-- Settles O51: the write is `memWrite`, which leaves phase and record, so before and after it a read returns the byte
that stands in memory and changes nothing. -/
theorem hostMemoryWriteIsReadBack : Obligations.HostMemoryWriteIsReadBack := by
  intro s addr v hp hf hm
  have hp' : (memWrite addr v s).phase = .idle := hp
  have hf' : (memWrite addr v s).fault = none := hf
  refine ⟨memWrite addr v s, hostWrite_of_idle _ hp, ?_, fun a ha => ?_, rfl,
    fun a => ⟨hostRead_of_idle hp hf, hostRead_of_idle hp' hf'⟩⟩
  · rw [hostRdata_readMem_of_idle addr hp' hf', memRead_memWrite_same addr v hm]
    rfl
  · rw [hostRdata_readMem_of_idle a hp' hf', hostRdata_readMem_of_idle a hp hf, memRead_memWrite_other v s ha]

end Sys2Proof.Machine
end

section
/-! ### Encoding

The decoder is `instrOf` on the bytes it takes, and `encode` and `instrOf` undo each other. -/

namespace Sys2Proof

/-- An unhandled opcode is well formed when it is none of the four decoded ones (30_encoding.md R88). -/
theorem unhandled_wf_iff (op : Byte) :
    (Instr.unhandled op).wf = true ↔ op ≠ 0xA9#8 ∧ op ≠ 0xA5#8 ∧ op ≠ 0xB5#8 ∧ op ≠ 0x20#8 := by
  simp [Instr.wf, decodedOpcodes]

theorem instrOf_of_unhandled {op : Byte} (b1 b2 : Byte) (h : dispatch op = .unhandled) :
    instrOf op b1 b2 = .unhandled op := by
  rw [instrOf, h]

/-- Whatever the operand bytes, what an opcode byte stands for is well formed (30_encoding.md R83-R88). -/
theorem instrOf_wf (op b1 b2 : Byte) : (instrOf op b1 b2).wf = true := by
  rcases opcode_cases op with rfl | rfl | rfl | rfl | hop
  · rfl
  · rfl
  · rfl
  · rfl
  · rw [instrOf_of_unhandled b1 b2 hop]
    exact (dispatch_unhandled_iff op).1 hop

/-- An instruction is its opcode byte and the operand bytes of its handler (30_encoding.md R81). -/
theorem instrOf_length (op b1 b2 : Byte) : (instrOf op b1 b2).length = operandBytes (dispatch op) + 1 := by
  unfold instrOf
  cases dispatch op <;> rfl

/-- The operand bytes of each opcode, with the opcode byte itself (30_encoding.md R90). -/
theorem operandBytes_dispatch_add_one (op : Byte) :
    operandBytes (dispatch op) + 1 =
      if op = 0xA9#8 ∨ op = 0xA5#8 ∨ op = 0xB5#8 then 2 else if op = 0x20#8 then 3 else 1 := by
  rcases opcode_cases op with rfl | rfl | rfl | rfl | hop
  · rfl
  · rfl
  · rfl
  · rfl
  · obtain ⟨hA9, hA5, hB5, h20⟩ := (unhandled_wf_iff op).1 ((dispatch_unhandled_iff op).1 hop)
    simp [hop, operandBytes, hA9, hA5, hB5, h20]

theorem operandBytes_le_two (h : Handler) : operandBytes h ≤ 2 := by
  cases h <;> decide

/-- Encoding what was read from an opcode and the bytes after it gives back that opcode and the bytes taken. -/
theorem encode_instrOf_append_drop (op : Byte) (bs : List Byte) (h : operandBytes (dispatch op) ≤ bs.length) :
    encode (instrOf op (bs.getD 0 0) (bs.getD 1 0)) ++ bs.drop (operandBytes (dispatch op)) = op :: bs := by
  rcases opcode_cases op with rfl | rfl | rfl | rfl | hop
  · obtain ⟨imm, bs, rfl⟩ := List.exists_cons_of_length_pos h
    rfl
  · obtain ⟨zp, bs, rfl⟩ := List.exists_cons_of_length_pos h
    rfl
  · obtain ⟨zp, bs, rfl⟩ := List.exists_cons_of_length_pos h
    rfl
  · match bs, h with
    | lo :: hi :: bs, _ =>
      show [0x20#8, Machine.lo8 (Machine.wordOf lo hi), Machine.hi8 (Machine.wordOf lo hi)] ++ bs = _
      rw [Machine.lo8_wordOf, Machine.hi8_wordOf]
      rfl
  · rw [instrOf_of_unhandled _ _ hop, hop]
    rfl

/-- Settles O1: the decoder takes the opcode and the operand bytes that `encode` wrote; a call's target is put together
again from its two bytes. -/
theorem decodeOfEncodeIsTheInstruction : Obligations.DecodeOfEncodeIsTheInstruction := by
  intro i rest hwf
  cases i with
  | ldaImm imm => exact (decode_cons_ok _ (imm :: rest) _ _).2 ⟨Nat.le_add_left _ _, rfl, rfl⟩
  | ldaZp zp => exact (decode_cons_ok _ (zp :: rest) _ _).2 ⟨Nat.le_add_left _ _, rfl, rfl⟩
  | ldaZpx zp => exact (decode_cons_ok _ (zp :: rest) _ _).2 ⟨Nat.le_add_left _ _, rfl, rfl⟩
  | jsrAbs target =>
    have htarget := congrArg Instr.jsrAbs (Machine.wordOf_lo8_hi8 target)
    exact (decode_cons_ok _ (Machine.lo8 target :: Machine.hi8 target :: rest) _ _).2
      ⟨Nat.le_add_left _ _, htarget, rfl⟩
  | unhandled op =>
    have hop : dispatch op = .unhandled := (dispatch_unhandled_iff op).2 hwf
    exact (decode_cons_ok op rest _ _).2 (hop ▸ ⟨Nat.zero_le _, instrOf_of_unhandled _ _ hop, rfl⟩)

/-- Settles O2: what is read is an `instrOf`, which is well formed and encodes to the bytes taken. -/
theorem encodeOfDecodeIsTheBytes : Obligations.EncodeOfDecodeIsTheBytes := by
  intro bytes i rest h
  cases bytes with
  | nil => cases h
  | cons op bs =>
    obtain ⟨hlen, rfl, rfl⟩ := (decode_cons_ok op bs i rest).1 h
    exact ⟨instrOf_wf _ _ _, encode_instrOf_append_drop op bs hlen⟩

/-- Settles O4: the length is one more than the operand bytes the decoder takes, whose number the opcode gives. -/
theorem lengthIsAFunctionOfTheOpcode : Obligations.LengthIsAFunctionOfTheOpcode := by
  intro op operands i rest h
  obtain ⟨hlen, rfl, rfl⟩ := (decode_cons_ok op operands i rest).1 h
  rw [instrOf_length]
  exact ⟨operandBytes_dispatch_add_one op, rfl, Nat.succ_le_succ hlen⟩

/-- Settles O3: no handler takes more than the two bytes that follow. -/
theorem everyOpcodeByteDecodes : Obligations.EveryOpcodeByteDecodes := by
  refine ⟨⟨dispatch_A9, dispatch_A5, dispatch_B5, dispatch_20⟩, fun op hA9 hA5 hB5 h20 => ?_, fun op b1 b2 rest => ?_⟩
  · exact (dispatch_unhandled_iff op).2 ((unhandled_wf_iff op).2 ⟨hA9, hA5, hB5, h20⟩)
  · have hlen : operandBytes (dispatch op) ≤ (b1 :: b2 :: rest).length :=
      (operandBytes_le_two _).trans (Nat.le_add_left 2 rest.length)
    exact ⟨_, _, (decode_cons_ok op (b1 :: b2 :: rest) _ _).2 ⟨hlen, rfl, rfl⟩⟩

/-- Settles O5: the decoder evaluates on each word. -/
theorem writtenOutWordsDecode : Obligations.WrittenOutWordsDecode := ⟨rfl, rfl, rfl, rfl, rfl⟩

/-- A zero-extended byte is an address of the zero page (30_encoding.md R84). -/
theorem zext16_toNat_le (b : Byte) : (Machine.zext16 b).toNat ≤ 0x00FF :=
  Machine.zext16_toNat b ▸ Nat.le_of_lt_succ b.isLt

/-- Settles O44: both addresses are a zero-extended byte, the indexed one that of the byte sum. -/
theorem zeroPageAddresses : Obligations.ZeroPageAddresses := by
  intro zp x
  have hsum : (Machine.zeroPageXAddr zp x).toNat = (zp.toNat + x.toNat) % 256 :=
    (Machine.zext16_toNat (zp + x)).trans (BitVec.toNat_add zp x)
  exact ⟨Machine.zext16_toNat zp, zext16_toNat_le zp, hsum, zext16_toNat_le (zp + x)⟩

end Sys2Proof
end

section
/-! ### Cost, unhandled opcodes and the diagnostic event -/

namespace Sys2Proof.Machine

/-- Settles O35: the budget of each case of `exec_cases`. -/
theorem cycleCosts : Obligations.CycleCosts := by
  intro i s t h
  obtain ⟨_, hv, rfl⟩ | ⟨_, rfl, hsp, rfl⟩ | ⟨_, rfl, hsp, rfl⟩ | ⟨_, rfl, rfl⟩ := exec_cases h
  · obtain ⟨_, rfl | rfl | rfl⟩ := exists_lda_form_of_ldaByte hv <;> exact Int.sub_sub_self _ _
  · exact (Int.sub_sub_self _ _).trans (if_neg hsp).symm
  · exact (Int.sub_sub_self _ _).trans (if_pos hsp).symm
  · exact Int.sub_sub_self _ _

/-- Settles O28: the instruction is the opcode fetch alone. -/
theorem unhandledOpcodeCompletes : Obligations.UnhandledOpcodeCompletes := fun s op => exec_unhandled op s

/-- Settles O31: the state of `exec_unhandled`, field by field. -/
theorem unhandledOpcodeFrame : Obligations.UnhandledOpcodeFrame := by
  intro s t op h
  rw [exec_unhandled] at h
  cases h
  exact ⟨rfl, rfl, rfl, rfl, rfl, fun _ => rfl, rfl, rfl, rfl, rfl⟩

/-- The instruction at PC emits an event exactly when its opcode has no handler (40_execute.md R109). -/
theorem eventOf_fetchInstr (s : State) :
    eventOf (fetchInstr s) s =
      if dispatch (memRead s.pc s) = .unhandled then some ⟨memRead s.pc s, s.pc⟩ else none := by
  unfold fetchInstr instrOf
  cases dispatch (memRead s.pc s) <;> rfl

/-- Settles O46: outside a run there is no event, and in one `eventOf_fetchInstr` says which. -/
theorem eventExactlyAtUnhandledOpcodes : Obligations.EventExactlyAtUnhandledOpcodes := by
  intro s e
  rw [diagOut, eventOf_fetchInstr]
  simp only [budgetLeft, decide_eq_true_eq, Option.ite_none_right_eq_some, Option.some.injEq, and_assoc,
    eq_comm (a := e)]

end Sys2Proof.Machine
end

section
/-! ### The step during a run

A step of a run is one instruction or the end of the run, and one instruction is one round of the spec's loop. -/

namespace Sys2Proof.Machine

theorem step_of_budget_pos {s : State} (hp : s.phase = .running) (hb : 0 < s.budget) :
    step s = exec (fetchInstr s) s := by
  rw [step_running hp, if_pos (by simpa [budgetLeft] using hb)]

theorem step_of_budget_nonpos {s : State} (hp : s.phase = .running) (hb : s.budget ≤ 0) :
    step s = .next (endRun s) := by
  rw [step_running hp, if_neg (by simpa [budgetLeft] using hb)]

/-- Settles O11: `endRun` sets the phase and keeps the budget. -/
theorem runEndsWhenTheBudgetIsSpent : Obligations.RunEndsWhenTheBudgetIsSpent := fun _ hp hb =>
  ⟨step_of_budget_nonpos hp hb, if_pos ⟨hp, hb⟩⟩

/-- Settles O17: both kinds of step of a run answer a next state. -/
theorem everyStepOfARunIsTaken : Obligations.EveryStepOfARunIsTaken := by
  intro s hp
  obtain hb | hb := lt_or_ge 0 s.budget
  · exact step_of_budget_pos hp hb ▸ exec_next (fetchInstr s) s
  · exact ⟨endRun s, step_of_budget_nonpos hp hb⟩

/-- Settles O10: what the decoder reads from the window at PC is `fetchInstr`. -/
theorem stepRunsTheDecodedInstruction : Obligations.StepRunsTheDecodedInstruction := by
  intro s i rest hp hb h
  obtain ⟨_, hi, _⟩ := (decode_cons_ok _ _ _ _).1 h
  have hfetch : fetchInstr s = i := hi
  rw [step_of_budget_pos hp hb, hfetch]

/-- Settles O24: the opcode selects no handler, so the instruction at PC is `unhandled`, which emits the event. -/
theorem unhandledOpcodeFromItsByte : Obligations.UnhandledOpcodeFromItsByte := by
  intro s hp hb op hA9 hA5 hB5 h20
  obtain ⟨_, hunhandled, _⟩ := everyOpcodeByteDecodes
  have hop : dispatch (memRead s.pc s) = .unhandled := hunhandled op hA9 hA5 hB5 h20
  have hfetch : fetchInstr s = .unhandled op := instrOf_of_unhandled _ _ hop
  refine ⟨?_, (eventExactlyAtUnhandledOpcodes s _).2 ⟨hp, hb, hop, rfl⟩⟩
  rw [step_of_budget_pos hp hb, hfetch]
  exact exec_unhandled op s

/-- Settles O41: the high byte of a word stands in front of the low one. -/
theorem fetchPrimitives : Obligations.FetchPrimitives := by
  intro s addr
  refine ⟨fetchByte_eq s, ?_, readByteAt_eq addr s, rfl⟩
  rw [fetchWordLE, wordOf_eq_append]
  rfl

/-- Each handler fetches its operands where `fetchInstr` reads them, so an instruction done at once is one round of the
loop (40_execute.md R108, R113). -/
theorem exec_fetchInstr (s : State) : exec (fetchInstr s) s = .next (loopBody s) := by
  have htwo : passBytes 1 (passBytes 1 s) = passBytes 2 s := passBytes_passBytes 1 1 s
  have hthree : passBytes 2 (passBytes 1 s) = passBytes 3 s := passBytes_passBytes 2 1 s
  have hpc : s.pc + 1 + 1 = s.pc + 2 := BitVec.add_assoc s.pc 1 1
  show exec (instrOf (memRead s.pc s) (memRead (s.pc + 1) s) (memRead (s.pc + 2) s)) s =
    .next (handlerOf (memRead s.pc s) (passBytes 1 s))
  obtain hop | hop | hop | hop | hop := opcode_cases (memRead s.pc s)
  · rw [hop]
    exact congrArg (fun t => Host.Outcome.next (loadAccumulator (memRead (s.pc + 1) s) t)) htwo.symm
  · rw [hop]
    exact congrArg (fun t => Host.Outcome.next (loadZeroPage (memRead (s.pc + 1) s) t)) htwo.symm
  · rw [hop]
    exact congrArg (fun t => Host.Outcome.next (loadZeroPageX (memRead (s.pc + 1) s) t)) htwo.symm
  · rw [hop]
    show Host.Outcome.next (callThrough (wordOf (memRead (s.pc + 1) s) (memRead (s.pc + 2) s)) (passBytes 3 s)) =
      .next (callThrough (wordOf (memRead (s.pc + 1) s) (memRead (s.pc + 1 + 1) s)) (passBytes 2 (passBytes 1 s)))
    rw [hthree, hpc]
  · rw [instrOf_of_unhandled _ _ hop, handlerOf, hop]
    rfl

/-- Settles O12: the step is the instruction at PC, which is `loopBody`. -/
theorem stepIsOneRoundOfTheLoop : Obligations.StepIsOneRoundOfTheLoop := fun s hp hb =>
  (step_of_budget_pos hp hb).trans (exec_fetchInstr s)

end Sys2Proof.Machine
end

section
/-! ### A whole run -/

namespace Sys2Proof.Machine

theorem hostStart_of_idle {s : State} (b0 : Nat) (h : s.phase = .idle) :
    hostStart b0 s = .next { s with budget := b0, phase := .running } := by
  simp [hostStart, h]

/-- Settles O53: in phase Idle it is the host's turn, and its move is the start. -/
theorem startLoadsTheBudget : Obligations.StartLoadsTheBudget := by
  intro s b0 rest hp hhost
  rw [step_not_running (by simp [hp]), hostTurn, hhost]
  exact hostStart_of_idle (s := { s with host := rest }) b0 hp

/-- Settles O15: the start with budget 0, then at once the end of the run, which returns to the phase Idle of `s`. -/
theorem zeroBudgetRunChangesNothing : Obligations.ZeroBudgetRunChangesNothing := by
  intro s rest hp hhost
  refine ⟨_, startLoadsTheBudget s 0 rest hp hhost, rfl, rfl, ?_⟩
  rw [step_of_budget_nonpos rfl le_rfl, hp]
  rfl

/-- An instruction charges at least one cycle (40_execute.md R114). -/
theorem exec_budget_lt {i : Instr} {s t : State} (h : exec i s = .next t) : t.budget < s.budget := by
  have hcost := cycleCosts i s t h
  cases i with
  | jsrAbs _ =>
    dsimp only at hcost
    split at hcost <;> omega
  | _ => dsimp only at hcost; omega

/-- How `execute` leaves its loop: a fault stays as it is, else the run ends (40_execute.md R104, R106). -/
def leaveLoop (t : State) : State := if t.phase = .faulted then t else endRun t

theorem leaveLoop_of_faulted {t : State} (h : t.phase = .faulted) : leaveLoop t = t := if_pos h

theorem leaveLoop_of_running {t : State} (h : t.phase = .running) : leaveLoop t = endRun t :=
  if_neg (by simp [h])

theorem execute_of_idle {s : State} (b0 : Nat) (h : s.phase = .idle) :
    execute b0 s = .next (leaveLoop (runLoop b0 { s with budget := b0, phase := .running })) := by
  rw [execute, h]
  rfl

theorem runLoop_succ {s : State} (n : Nat) (hp : s.phase = .running) (hb : 0 < s.budget) :
    runLoop (n + 1) s = runLoop n (loopBody s) :=
  if_pos ⟨hp, hb⟩

/-- The loop is left at once when its test fails (40_execute.md R105). -/
theorem runLoop_eq_self {s : State} (n : Nat) (h : ¬ (s.phase = .running ∧ 0 < s.budget)) : runLoop n s = s := by
  cases n with
  | zero => rfl
  | succ n => exact if_neg h

/-- An instruction of a run is followed by the next one in phase Running, or ends the run by its fault. -/
theorem loopBody_phase {s : State} (hp : s.phase = .running) :
    (loopBody s).phase = .running ∨ (loopBody s).phase = .faulted := by
  obtain ⟨hphase, _⟩ | ⟨hphase, _⟩ := exec_phase (exec_fetchInstr s)
  · exact .inl (hphase.trans hp)
  · exact .inr hphase

/-- What the loop leaves when it has as many rounds as the budget has cycles: a fault, or a budget that is spent. -/
theorem runLoop_ends (n : Nat) (s : State) (hs : s.Inv) (hp : s.phase = .running) (hb : s.budget ≤ n) :
    (runLoop n s).Inv ∧ (runLoop n s).host = s.host ∧
    ((runLoop n s).phase = .faulted ∨ (runLoop n s).phase = .running ∧ (runLoop n s).budget ≤ 0) := by
  induction n generalizing s with
  | zero => exact ⟨hs, rfl, .inr ⟨hp, hb⟩⟩
  | succ n ih =>
    obtain hpos | hspent := lt_or_ge 0 s.budget
    · have he := exec_fetchInstr s
      have hinv := exec_inv hs hpos he
      have hhost := (exec_with_host he s.host).1
      have hlt := exec_budget_lt he
      rw [runLoop_succ n hp hpos, ← hhost]
      obtain hrun | hfault := loopBody_phase hp
      · exact ih _ hinv hrun (by omega)
      · rw [runLoop_eq_self n (by simp [hfault])]
        exact ⟨hinv, rfl, .inl hfault⟩
    · rw [runLoop_eq_self _ (by omega)]
      exact ⟨hs, rfl, .inr ⟨hp, hspent⟩⟩

/-- The steps of a run do what the loop does. Each round is one step, and the end of the run is one more. -/
theorem runSteps_eq_leaveLoop (n : Nat) (s : State) (hp : s.phase = .running) (hb : s.budget ≤ n) :
    ∃ k, runSteps k s = .next (leaveLoop (runLoop n s)) ∧ k ≤ n + 1 ∧
      ((runLoop n s).phase = .faulted → k ≤ n) := by
  induction n generalizing s with
  | zero =>
    rw [runLoop, leaveLoop_of_running hp]
    exact ⟨1, runSteps_next 0 (step_of_budget_nonpos hp hb), le_rfl, by simp [hp]⟩
  | succ n ih =>
    obtain hpos | hspent := lt_or_ge 0 s.budget
    · have hlt := exec_budget_lt (exec_fetchInstr s)
      have hstep := stepIsOneRoundOfTheLoop s hp hpos
      rw [runLoop_succ n hp hpos]
      obtain hrun | hfault := loopBody_phase hp
      · obtain ⟨k, hk, hle, hlef⟩ := ih _ hrun (by omega)
        exact ⟨k + 1, (runSteps_next k hstep).trans hk, by omega, fun h => Nat.succ_le_succ (hlef h)⟩
      · rw [runLoop_eq_self n (by simp [hfault]), leaveLoop_of_faulted hfault]
        exact ⟨1, runSteps_next 0 hstep, by omega, fun _ => by omega⟩
    · rw [runLoop_eq_self _ (by omega), leaveLoop_of_running hp]
      exact ⟨1, runSteps_next 0 (step_of_budget_nonpos hp hspent), by omega, by simp [hp]⟩

/-- Settles O13: one step starts the run, and from there on the steps do what the loop does. -/
theorem executeIsIteratedStep : Obligations.ExecuteIsIteratedStep := by
  intro s b0 rest hp
  have hstart := startLoadsTheBudget { s with host := .start b0 :: rest } b0 rest hp rfl
  obtain ⟨k, hk, hle, _⟩ :=
    runSteps_eq_leaveLoop b0 { s with host := rest, budget := b0, phase := .running } rfl le_rfl
  refine ⟨k + 1, by omega, ?_⟩
  rw [runSteps_next k hstart, execute_of_idle (s := { s with host := rest }) b0 hp]
  exact hk

/-- Settles O14: the run reaches what the loop leaves, which `runLoop_ends` says; the invariant bounds its budget. -/
theorem everyRunEnds : Obligations.EveryRunEnds := by
  intro s b0 rest hs hp hhost
  have hstart := startLoadsTheBudget s b0 rest hp hhost
  have hs' := stepKeepsTheInvariant _ _ hs hstart
  obtain ⟨hinv, hrest, hend⟩ := runLoop_ends b0 _ hs' rfl le_rfl
  obtain ⟨k, hk, hle, hlef⟩ :=
    runSteps_eq_leaveLoop b0 { s with budget := b0, phase := .running, host := rest } rfl le_rfl
  refine ⟨k + 1, _, (runSteps_next k hstart).trans hk, ?_⟩
  obtain hfault | ⟨hrun, hspent⟩ := hend
  · rw [leaveLoop_of_faulted hfault]
    exact ⟨hrest, .inr ⟨Nat.succ_le_succ (hlef hfault), hfault⟩⟩
  · rw [leaveLoop_of_running hrun]
    have hfault := State.fault_eq_none_of_record hinv.record (by simp [hrun])
    exact ⟨hrest, .inl ⟨Nat.succ_le_succ hle, ⟨rfl, hfault⟩, hinv.budget hrun, hspent⟩⟩

end Sys2Proof.Machine
end

section
/-! ### The memory port -/

namespace Sys2Proof.Machine

/-- A call that completes writes its two bytes after the three fetches (40_execute.md R112). -/
theorem busCycles_jsrAbs_of_sp_ne {s : State} (target : Word) (h : s.sp ≠ 0xFFFF#16) :
    busCycles (.jsrAbs target) s =
      [busRead s s.pc, busRead s (s.pc + 1), busRead s (s.pc + 2), .write s.sp (lo8 (s.pc + 2)),
        .write (s.sp + 1) (hi8 (s.pc + 2)), .internal, .internal] := by
  rw [busCycles, if_neg h]
  rfl

/-- A call that faults stops after its three fetches (60_exceptions.md R165; log entry 11). -/
theorem busCycles_jsrAbs_of_sp_eq {s : State} (target : Word) (h : s.sp = 0xFFFF#16) :
    busCycles (.jsrAbs target) s = [busRead s s.pc, busRead s (s.pc + 1), busRead s (s.pc + 2)] := by
  rw [busCycles, if_pos h]
  rfl

/-- One cycle of the port for each cycle charged (40_execute.md R111, R112). -/
theorem busCycles_length {i : Instr} {s t : State} (h : exec i s = .next t) :
    ((busCycles i s).length : Int) = s.budget - t.budget := by
  rw [cycleCosts i s t h]
  cases i with
  | jsrAbs target =>
    by_cases hsp : s.sp = 0xFFFF#16
    · rw [busCycles_jsrAbs_of_sp_eq target hsp]
      exact (if_pos hsp).symm
    · rw [busCycles_jsrAbs_of_sp_ne target hsp]
      exact (if_neg hsp).symm
  | _ => rfl

/-- A read that starts a sequence returns the byte memory holds. -/
@[simp] theorem busReadsMemory_busRead_cons (s : State) (addr : Word) (cs : List BusCycle) :
    busReadsMemory s.mem (busRead s addr :: cs) = busReadsMemory s.mem cs := by
  simp [busReadsMemory, busRead, memRead]

/-- No write comes before a read, so every read returns the byte memory holds. -/
theorem busReadsMemory_busCycles (i : Instr) (s : State) : busReadsMemory s.mem (busCycles i s) = true := by
  cases i with
  | jsrAbs target =>
    by_cases hsp : s.sp = 0xFFFF#16
    · simp [busCycles_jsrAbs_of_sp_eq target hsp, busReadsMemory]
    · simp [busCycles_jsrAbs_of_sp_ne target hsp, busReadsMemory]
  | _ => simp [busCycles, busReadsMemory]

/-- Only the write cycles of a call that completes change memory. -/
theorem foldl_busApply_busCycles {i : Instr} {s t : State} (h : exec i s = .next t) :
    (busCycles i s).foldl busApply s.mem = t.mem := by
  obtain ⟨_, hv, rfl⟩ | ⟨target, rfl, hsp, rfl⟩ | ⟨target, rfl, hsp, rfl⟩ | ⟨_, rfl, rfl⟩ := exec_cases h
  · obtain ⟨_, rfl | rfl | rfl⟩ := exists_lda_form_of_ldaByte hv <;> rfl
  · rw [busCycles_jsrAbs_of_sp_ne target hsp]
    rfl
  · rw [busCycles_jsrAbs_of_sp_eq target hsp]
    rfl
  · rfl

/-- Settles O45: each instruction's row, then its length, its reads and its writes. -/
theorem busSequenceAgrees : Obligations.BusSequenceAgrees := by
  refine ⟨fun i s => ?_, fun i s t h =>
    ⟨busCycles_length h, busReadsMemory_busCycles i s, foldl_busApply_busCycles h⟩⟩
  cases i with
  | jsrAbs target =>
    by_cases hsp : s.sp = 0xFFFF#16
    · exact (busCycles_jsrAbs_of_sp_eq target hsp).trans (if_pos hsp).symm
    · rw [busCycles_jsrAbs_of_sp_ne target hsp, lo8_eq_setWidth, hi8_eq_setWidth]
      exact (if_neg hsp).symm
  | _ => rfl

end Sys2Proof.Machine
end

section
/-! ### LDA, as an instruction and from its bytes

`exec_of_ldaByte` says what a load leaves once the byte it loads is known: here is where each form finds that byte. -/

namespace Sys2Proof.Machine

/-- LDA zp loads the byte at the address `zp` itself (30_encoding.md R84). -/
@[simp] theorem ldaByte_ldaZp (zp : Byte) (s : State) : ldaByte (.ldaZp zp) s = some (s.mem.read zp.toNat) := by
  obtain ⟨haddr, -⟩ := zeroPageAddresses zp s.x
  rw [ldaByte, memRead, haddr]

/-- LDA zp,X loads the byte at `zp + X`, wrapped inside the zero page (30_encoding.md R85). -/
@[simp] theorem ldaByte_ldaZpx (zp : Byte) (s : State) :
    ldaByte (.ldaZpx zp) s = some (s.mem.read ((zp.toNat + s.x.toNat) % 256)) := by
  obtain ⟨-, -, haddr, -⟩ := zeroPageAddresses zp s.x
  rw [ldaByte, memRead, haddr]

theorem exists_ldaByte_of_lda_form {i : Instr} {b : Byte} (h : i = .ldaImm b ∨ i = .ldaZp b ∨ i = .ldaZpx b)
    (s : State) : ∃ v, ldaByte i s = some v := by
  obtain rfl | rfl | rfl := h
  · exact ⟨_, rfl⟩
  · exact ⟨_, rfl⟩
  · exact ⟨_, rfl⟩

/-- Settles O25: the three forms leave the state of `exec_of_ldaByte`, each with its own byte and cost. -/
theorem ldaFormsComplete : Obligations.LdaFormsComplete := fun s b =>
  ⟨exec_of_ldaByte rfl, exec_of_ldaByte (ldaByte_ldaZp b s), exec_of_ldaByte (ldaByte_ldaZpx b s)⟩

/-- Settles O29: the state of `exec_of_ldaByte`, field by field. -/
theorem ldaFrame : Obligations.LdaFrame := by
  intro s t b i hi h
  obtain ⟨v, hv⟩ := exists_ldaByte_of_lda_form hi s
  rw [exec_of_ldaByte hv] at h
  cases h
  exact ⟨rfl, rfl, rfl, rfl, rfl, rfl, rfl, rfl, rfl, rfl, fun _ => rfl, rfl, rfl, rfl, rfl⟩

/-- A step of a run is the instruction that the opcode byte at PC stands for, on the two bytes after it
(30_encoding.md R80, R82). -/
theorem step_of_opcode {s : State} {op : Byte} (hp : s.phase = .running) (hb : 0 < s.budget)
    (hop : memRead s.pc s = op) :
    step s = exec (instrOf op (memRead (s.pc + 1) s) (memRead (s.pc + 2) s)) s := by
  rw [step_of_budget_pos hp hb, fetchInstr, hop]

/-- Settles O20: 0xA9 stands for LDA #imm, whose operand is the byte at PC + 1. -/
theorem ldaImmediateFromItsBytes : Obligations.LdaImmediateFromItsBytes := by
  intro s hp hb hop imm
  obtain ⟨himm, -, -⟩ := ldaFormsComplete s imm
  exact (step_of_opcode hp hb hop).trans himm

/-- Settles O21: 0xA5 stands for LDA zp, whose operand is the byte at PC + 1. -/
theorem ldaZeroPageFromItsBytes : Obligations.LdaZeroPageFromItsBytes := by
  intro s hp hb hop zp v
  obtain ⟨-, hzp, -⟩ := ldaFormsComplete s zp
  exact (step_of_opcode hp hb hop).trans hzp

/-- Settles O22: 0xB5 stands for LDA zp,X, whose operand is the byte at PC + 1. -/
theorem ldaZeroPageXFromItsBytes : Obligations.LdaZeroPageXFromItsBytes := by
  intro s hp hb hop zp v
  obtain ⟨-, -, hzpx⟩ := ldaFormsComplete s zp
  exact (step_of_opcode hp hb hop).trans hzpx

end Sys2Proof.Machine
end

section
/-! ### JSR, as an instruction and from its bytes

`exec_jsrAbs_of_sp_ne` and `exec_jsrAbs_of_sp_eq` say what a call leaves when it completes and when it faults. -/

namespace Sys2Proof.Machine

theorem ne_top_of_toNat_lt {addr : Word} (h : addr.toNat < 0xFFFF) : addr ≠ 0xFFFF#16 := by
  rintro rfl
  exact absurd h (by decide)

/-- Settles O26: the state of `exec_jsrAbs_of_sp_ne`, whose word write reads back as the return address. -/
theorem jsrCompletes : Obligations.JsrCompletes := fun s target hsp =>
  ⟨_, exec_jsrAbs_of_sp_ne target hsp, rfl, toNat_succ hsp, rfl, rfl, rfl,
    fun hm => Memory.read_writeWord hm hsp (s.pc + 2)⟩

/-- Settles O30: a call that faults has stored nothing; one that completes has written one word, at SP. -/
theorem jsrFrame : Obligations.JsrFrame := by
  intro s t target h
  by_cases hsp : s.sp = 0xFFFF#16
  · rw [exec_jsrAbs_of_sp_eq target hsp] at h
    cases h
    exact ⟨rfl, rfl, rfl, rfl, rfl, rfl, fun _ _ _ => rfl, fun hne => absurd hsp hne, fun _ => ⟨rfl, fun _ => rfl⟩⟩
  · rw [exec_jsrAbs_of_sp_ne target hsp] at h
    cases h
    exact ⟨rfl, rfl, rfl, rfl, rfl, rfl, fun _ => Memory.read_writeWord_other hsp, fun _ => ⟨rfl, rfl⟩,
      fun heq => absurd heq hsp⟩

/-- Settles O39: each call stores a whole return address (`jsrCompletes`), the second one from the high byte of the
first on, and the second leaves the byte below its own SP alone (`jsrFrame`). -/
theorem successiveCallsOverlap : Obligations.SuccessiveCallsOverlap := by
  intro s t u first second hm htop ht hu
  have hs : s.sp ≠ 0xFFFF#16 := ne_top_of_toNat_lt (by omega)
  obtain ⟨_, ht', htpc, htsp, -, -, -, htread⟩ := jsrCompletes s first hs
  cases ht'.symm.trans ht
  have hts : t.sp ≠ 0xFFFF#16 := ne_top_of_toNat_lt (by omega)
  obtain ⟨_, hu', -, husp, -, -, -, huread⟩ := jsrCompletes t second hts
  cases hu'.symm.trans hu
  obtain ⟨-, -, -, -, -, -, hkept, -, -⟩ := jsrFrame t u second hu
  obtain ⟨hfirst, -⟩ := htread hm
  obtain ⟨hlo, hhi⟩ := huread (exec_wf ht hm)
  rw [htsp, htpc] at hlo hhi
  exact ⟨by omega, (hkept _ (by omega) (by omega)).trans hfirst, hlo, hhi⟩

/-- Settles O23: 0x20 stands for JSR, whose target is the two bytes after the opcode, the second in front of the
first. -/
theorem jsrFromItsBytes : Obligations.JsrFromItsBytes := by
  intro s hp hb hop ret
  have hstep : step s = exec (.jsrAbs (wordOf (memRead (s.pc + 1) s) (memRead (s.pc + 2) s))) s :=
    step_of_opcode hp hb hop
  refine ⟨fun hsp => ?_, fun hsp => hstep.trans (exec_jsrAbs_of_sp_eq _ hsp)⟩
  rw [hstep, exec_jsrAbs_of_sp_ne _ hsp, wordOf_eq_append, toNat_succ hsp, lo8_eq_setWidth, hi8_eq_setWidth]
  rfl

end Sys2Proof.Machine
end

section
/-! ### The range fault, in an instruction, a step and a run of one instruction -/

namespace Sys2Proof.Machine

/-- Settles O27: the state of `exec_jsrAbs_of_sp_eq`; code and info of its record are those of the catalogue. -/
theorem jsrTrapsAtTheTopOfMemory : Obligations.JsrTrapsAtTheTopOfMemory := fun _ target hsp =>
  ⟨exec_jsrAbs_of_sp_eq target hsp, rfl, rfl⟩

/-- Settles O38: of the cases of `exec_cases` only the call at SP = 0xFFFF sets a record; the others keep the empty
one. -/
theorem faultOnlyFromOverflowingCall : Obligations.FaultOnlyFromOverflowingCall := by
  intro i s t hf h
  obtain ⟨v, hv, rfl⟩ | ⟨target, rfl, hsp, rfl⟩ | ⟨target, rfl, hsp, rfl⟩ | ⟨op, rfl, rfl⟩ := exec_cases h
  · have hcall : ¬ ∃ target, i = .jsrAbs target := by
      rintro ⟨_, rfl⟩
      cases hv
    simp [hf, hcall]
  · simp [hf, hsp]
  · simp [hsp]
  · simp [hf]

/-- The instruction at PC is a call exactly for the opcode 0x20 (30_encoding.md R87). -/
theorem fetchInstr_jsrAbs_iff (s : State) :
    (∃ target, fetchInstr s = .jsrAbs target) ↔ memRead s.pc s = 0x20#8 := by
  rw [fetchInstr]
  generalize memRead s.pc s = op
  obtain rfl | rfl | rfl | rfl | hop := opcode_cases op
  · simp [instrOf]
  · simp [instrOf]
  · simp [instrOf]
  · simp [instrOf]
  · obtain ⟨_, _, _, h20⟩ := (unhandled_wf_iff op).1 ((dispatch_unhandled_iff op).1 hop)
    simp [instrOf_of_unhandled _ _ hop, h20]

/-- A step that is taken is safe exactly when the state it reaches holds no record. -/
theorem safeStep_iff_of_step {s t : State} (h : step s = .next t) : SafeStep s ↔ t.fault = none := by
  simp [SafeStep, h]

/-- Settles O18: with cycles left the step is the instruction at PC, and `faultOnlyFromOverflowingCall`
says when that sets a record; without, it is the end of the run, which sets none. -/
theorem onlyOverflowingCallIsUnsafe : Obligations.OnlyOverflowingCallIsUnsafe := by
  intro s hp hf
  obtain hb | hb := lt_or_ge 0 s.budget
  · obtain ⟨t, he⟩ := exec_next (fetchInstr s) s
    obtain ⟨hfault, -⟩ := faultOnlyFromOverflowingCall _ s t hf he
    rw [fetchInstr_jsrAbs_iff] at hfault
    rw [safeStep_iff_of_step ((step_of_budget_pos hp hb).trans he), and_iff_right hb, ← hfault, not_not]
  · rw [safeStep_iff_of_step (step_of_budget_nonpos hp hb)]
    exact iff_of_true hf fun ⟨hpos, _⟩ => absurd hpos (not_lt.2 hb)

/-- Settles O16: with budget 1 the loop goes round once, and that round is the instruction at PC. -/
theorem executeOneIsASingleStep : Obligations.ExecuteOneIsASingleStep := by
  intro s i rest hp h
  obtain ⟨_, hi, _⟩ := (decode_cons_ok _ _ _ _).1 h
  have hfetch : fetchInstr { s with budget := 1, phase := .running } = i := hi
  refine ⟨_, hfetch ▸ exec_fetchInstr _, ?_⟩
  rw [execute_of_idle 1 hp, runLoop_succ 0 rfl Int.one_pos]
  rfl

end Sys2Proof.Machine
end

section
/-! ### The host in phase Faulted -/

namespace Sys2Proof.Machine

theorem hostWrite_of_faulted {s : State} (write : State → State) (h : s.phase = .faulted) :
    hostWrite write s = .refused (.hostMoveNotAllowed .faulted) := by
  simp [hostWrite, h]

theorem hostRead_of_faulted {s : State} (h : s.phase = .faulted) : hostRead s = .next (countFree s) := by
  simp [hostRead, h]

theorem hostStart_of_faulted {s : State} (b0 : Nat) (h : s.phase = .faulted) :
    hostStart b0 s = .refused (.hostMoveNotAllowed .faulted) := by
  simp [hostStart, h]

/-- In phase Faulted a read of memory returns a value: the byte that stands there, or a free one (60_exceptions.md
R176). -/
theorem hostRdata_readMem_isSome_of_faulted {s : State} (addr : Word) (h : s.phase = .faulted) :
    (hostRdata (.readMem addr) s).isSome = true := by
  simp [hostRdata, h]

/-- In phase Faulted a read of a register returns a value: the one it holds, or a free one (60_exceptions.md R176). -/
theorem hostRdata_readReg_isSome_of_faulted {s : State} (r : HostReg) (h : s.phase = .faulted) :
    (hostRdata (.readReg r) s).isSome = true := by
  simp [hostRdata, h]

/-- In phase Faulted the host can reset or read, and nothing else (60_exceptions.md R166, R176). -/
theorem hostMove_next_of_faulted {m : HostMove} {s t : State} (hp : s.phase = .faulted) (h : hostMove m s = .next t) :
    m = .reset ∨ t = countFree s := by
  obtain ⟨hm, _⟩ | ⟨_, _, _, hp', _⟩ | ⟨_, _, _, hp', _⟩ | ⟨_, _, ht⟩ | ⟨_, hp', _⟩ | ⟨_, _, hp', _⟩ :=
    hostMove_cases h
  · exact .inl hm
  · simp [hp] at hp'
  · simp [hp] at hp'
  · exact .inr ht
  · simp [hp] at hp'
  · simp [hp] at hp'

/-- In phase Faulted every step is a move of the host (60_exceptions.md R166). -/
theorem step_next_of_faulted {s t : State} (hp : s.phase = .faulted) (h : step s = .next t) :
    ∃ m rest, s.host = m :: rest ∧ hostMove m { s with host := rest } = .next t := by
  obtain ⟨hp', _⟩ | ⟨hp', _⟩ | ⟨_, hp', _⟩ | ⟨_, hmove⟩ := step_cases h
  · simp [hp] at hp'
  · simp [hp] at hp'
  · exact absurd hp hp'
  · exact hmove

/-- A read taken off the host's list changes that list and the count of free values only. -/
theorem countFree_with_host (s : State) (rest : List HostMove) :
    { countFree { s with host := rest } with host := s.host, freeCount := s.freeCount } = s := by
  unfold countFree
  split
  · rfl
  · rfl

/-- Settles O47: of the host's moves only reset and the reads are taken, and a read leaves all that is the machine's. -/
theorem faultIsSticky : Obligations.FaultIsSticky := by
  intro s hp
  refine ⟨fun hhost t h => ?_, fun b0 => hostStart_of_faulted b0 hp, fun _ _ => hostWrite_of_faulted _ hp,
    fun _ _ => hostWrite_of_faulted _ hp,
    fun addr => ⟨_, hostRead_of_faulted hp, hostRdata_readMem_isSome_of_faulted addr hp⟩,
    fun r => ⟨_, hostRead_of_faulted hp, hostRdata_readReg_isSome_of_faulted r hp⟩,
    ⟨_, hostMove_reset (by simp [hp]), rfl, rfl⟩, fun t h hreset => ?_⟩
  · obtain ⟨m, rest, hmove, _⟩ := step_next_of_faulted hp h
    simp [hhost] at hmove
  · obtain ⟨m, rest, hhost, hm⟩ := step_next_of_faulted hp h
    obtain rfl | rfl := hostMove_next_of_faulted (s := { s with host := rest }) hp hm
    · simp [hhost] at hreset
    · exact countFree_with_host s rest

end Sys2Proof.Machine
end

section
/-! ### The host in phase Idle -/

namespace Sys2Proof.Machine

theorem hostSilent_of_idle {s : State} (h : s.phase = .idle) : hostSilent s = .next s := by
  simp [hostSilent, h]

/-- Settles O52: it is the host's turn, and it has no move. -/
theorem idleKeepsEverything : Obligations.IdleKeepsEverything := by
  intro s hp hhost
  rw [step_not_running (by simp [hp]), hostTurn, hhost]
  exact hostSilent_of_idle hp

/-- What a read of a register returns in phase Idle: its value, zero-extended (60_exceptions.md R176). -/
theorem hostRdata_readReg_of_idle {s : State} (r : HostReg) (hp : s.phase = .idle) (hf : s.fault = none) :
    hostRdata (.readReg r) s = some (regRead r s) := by
  simp [hostRdata, hp, neverReset_eq_false hp hf]

/-- A flag written from bit 0 reads back as that bit, zero-extended (60_exceptions.md R176). -/
theorem flagWord_bit0 (v : Word) : flagWord (bit0 v) = (v.setWidth 1).setWidth 16 := by
  rw [BitVec.setWidth_one, bit0]
  cases v.getLsbD 0 <;> rfl

/-- What a register write leaves in each register and flag: the data in the one selected, else what was there. -/
theorem regWrite_registers (r : HostReg) (v : Word) (s : State) :
    (regWrite r v s).a = (if r = .a then lo8 v else s.a) ∧
    (regWrite r v s).x = (if r = .x then lo8 v else s.x) ∧
    (regWrite r v s).y = (if r = .y then lo8 v else s.y) ∧
    (regWrite r v s).pc = (if r = .pc then v else s.pc) ∧
    (regWrite r v s).sp = (if r = .sp then v else s.sp) ∧
    (regWrite r v s).flags.c = (if r = .flagC then bit0 v else s.flags.c) ∧
    (regWrite r v s).flags.z = (if r = .flagZ then bit0 v else s.flags.z) ∧
    (regWrite r v s).flags.i = (if r = .flagI then bit0 v else s.flags.i) ∧
    (regWrite r v s).flags.d = (if r = .flagD then bit0 v else s.flags.d) ∧
    (regWrite r v s).flags.b = (if r = .flagB then bit0 v else s.flags.b) ∧
    (regWrite r v s).flags.v = (if r = .flagV then bit0 v else s.flags.v) ∧
    (regWrite r v s).flags.n = (if r = .flagN then bit0 v else s.flags.n) := by
  cases r <;> exact ⟨rfl, rfl, rfl, rfl, rfl, rfl, rfl, rfl, rfl, rfl, rfl, rfl⟩

/-- The register written reads back as the data, cut to its width (60_exceptions.md R176). -/
theorem regRead_regWrite_same (r : HostReg) (v : Word) (s : State) :
    regRead r (regWrite r v s) = (v.setWidth (regWidth r)).setWidth 16 := by
  cases r with
  | a | x | y => exact congrArg zext16 (lo8_eq_setWidth v)
  | pc | sp => exact ((BitVec.setWidth_eq _).trans (BitVec.setWidth_eq v)).symm
  | _ => exact flagWord_bit0 v

/-- Every register but the one written reads as before (60_exceptions.md R176). -/
theorem regRead_regWrite_other {r r' : HostReg} (v : Word) (s : State) (h : r' ≠ r) :
    regRead r' (regWrite r v s) = regRead r' s := by
  cases r' <;> simp [regRead, regWrite_registers, h.symm]

/-- Settles O50: the write is `regWrite`, which leaves memory, budget, phase and record, so before and after it a read
returns the register's value and changes nothing. -/
theorem hostRegisterWriteIsReadBack : Obligations.HostRegisterWriteIsReadBack := by
  intro s r v hp hf
  obtain ⟨hmem, hbudget, hphase, hfault, -, -⟩ := regWrite_fields r v s
  have hp' := hphase.trans hp
  have hf' := hfault.trans hf
  refine ⟨regWrite r v s, hostWrite_of_idle _ hp, ?_, fun r' hr => ?_, hmem, hbudget, hp', hf',
    fun _ => ⟨hostRead_of_idle hp hf, hostRead_of_idle hp' hf'⟩⟩
  · rw [hostRdata_readReg_of_idle r hp' hf', regRead_regWrite_same]
  · rw [hostRdata_readReg_of_idle r' hp' hf', hostRdata_readReg_of_idle r' hp hf, regRead_regWrite_other v s hr]

end Sys2Proof.Machine
end

section
/-! ### Reset, repeated -/

namespace Sys2Proof.Machine

/-- Reset overwrites whatever an earlier reset left (70_reset_and_hazards.md R191). -/
@[simp] theorem resetCore_resetCore (s : State) : resetCore (resetCore s) = resetCore s := rfl

/-- Settles O7: a run refuses every move; in the other phases reset reaches `resetCore`, which is Idle and a fixed
point of reset. -/
theorem resetMayBeRepeated : Obligations.ResetMayBeRepeated := by
  refine fun s => ⟨hostMove_of_running .reset, fun hp => ⟨resetCore s, hostMove_reset hp, ?_⟩⟩
  have hidle : (resetCore s).phase ≠ .running := by simp
  rw [hostMove_reset hidle, resetCore_resetCore]

end Sys2Proof.Machine
end
